-- ==== Sys2Proof/Word.lean ====
section
/-! DEFINITION. The two widths of the hardware: the 8-bit byte and the 16-bit word (00_scope.md R11, R13). -/

namespace Sys2Proof

/-- The addressable unit, and the width of A, B, DP and CC (R11). -/
abbrev Byte := BitVec 8

/-- An address, and the width of X, Y, S, U and PC (R11). -/
abbrev Word := BitVec 16

end Sys2Proof
end

