-- ==== Sys2Proof/Machine/Bits.lean ====
section
/-! DEFINITION. Extensions and the byte order of 16-bit quantities (00_scope.md R13, R14; 20_memory.md R71, R81). -/

namespace Sys2Proof.Machine

/-- `zext_16(b)`: the high byte is 0x00 (R14). -/
def zext16 (b : Byte) : Word := b.setWidth 16

/-- `sext_16(b)`: bit 7 fills the high byte (R14). -/
def sext16 (b : Byte) : Word := b.signExtend 16

/-- `v[15:8]` (R13). -/
def hiByte (v : Word) : Byte := v.extractLsb' 8 8

/-- `v[7:0]` (R13). -/
def loByte (v : Word) : Byte := v.setWidth 8

/-- `hi:lo`, the first byte as the high part (R13, R81). -/
def joinBytes (hi lo : Byte) : Word := hi ++ lo

/-- An address expression reduced to an address: masked to 16 bits, never a fault (R71). -/
def maskAddr (n : Nat) : Word := BitVec.ofNat 16 n

end Sys2Proof.Machine
end

