-- ==== Sys2Proof/Machine/Memory.lean ====
section
/-! DEFINITION. Addressable memory: the RAM and ROM arrays behind one 16-bit address decoder
(20_memory.md R70 to R86). -/

namespace Sys2Proof.Machine

/-- The 65536 bytes of the address space: the RAM array at keys 0 to 0x7FFF, the ROM array at keys
0x8000 to 0xFFFF (R70). A key not listed holds what `MemReset` puts there (`Memory.resetByte`).
Canonical form: `Memory.wf`. -/
abbrev Memory := List Host.Cell

/-- What `MemReset` writes at address `k` (R86): RAM 0x00; ROM 0xFF, but 0x00 in the two bytes of the
reset vector. It is also what an unlisted address reads as. -/
def Memory.resetByte (k : Nat) : Byte :=
  if k < 0x8000 then 0x00 else if k < 0xFFFE then 0xFF else 0x00

/-- The byte held at key `k`. -/
def Memory.peek : Memory → Nat → Byte
  | [], k => Memory.resetByte k
  | (j, w) :: m, k => if j = k then w else Memory.peek m k

/-- Put a byte at key `k`, keeping the canonical form: keys rise, and a byte equal to what an unlisted
key reads as is not listed. -/
def Memory.poke : Memory → Nat → Byte → Memory
  | [], k, v => if v = Memory.resetByte k then [] else [(k, v)]
  | (j, w) :: m, k, v =>
    if k < j then (if v = Memory.resetByte k then (j, w) :: m else (k, v) :: (j, w) :: m)
    else if k = j then (if v = Memory.resetByte k then m else (k, v) :: m)
    else (j, w) :: Memory.poke m k v

/-- Keys strictly rise. -/
def Memory.rising : Memory → Bool
  | [] => true
  | (j, _) :: m => m.all (fun c => decide (j < c.1)) && Memory.rising m

/-- The canonical form: keys strictly rise and are addresses, and no entry repeats the reset byte. -/
def Memory.wf (m : Memory) : Bool :=
  Memory.rising m && m.all fun c => decide (c.1 < 0x10000) && decide (c.2 ≠ Memory.resetByte c.1)

/-- No key of the ROM array is listed: every ROM byte is the one `MemReset` wrote (R74). -/
def Memory.romIntact (m : Memory) : Bool := m.all fun c => decide (c.1 < 0x8000)

/-- Where the address decoder sends an access: an array and an index into it (R72). -/
inductive Target where
  | ram (index : Nat)
  | rom (index : Nat)
deriving DecidableEq, Repr

/-- The address decoder: below 0x8000 RAM at that address, otherwise ROM at address − 0x8000 (R72). -/
def decodeAddress (a : Word) : Target :=
  if a.toNat < 0x8000 then .ram a.toNat else .rom (a.toNat - 0x8000)

/-- `RAM[i]` (R73). -/
def Memory.ramByte (m : Memory) (i : Nat) : Byte := Memory.peek m i

/-- `ROM[i]` (R74). -/
def Memory.romByte (m : Memory) (i : Nat) : Byte := Memory.peek m (0x8000 + i)

/-- `MemRead(addr, 1)` (R75). -/
def Memory.read (m : Memory) (a : Word) : Byte :=
  match decodeAddress a with
  | .ram i => m.ramByte i
  | .rom i => m.romByte i

/-- `MemWrite(addr, 1, v)`: a write to ROM is a silent no-op (R76, R77). -/
def Memory.write (m : Memory) (a : Word) (v : Byte) : Memory :=
  match decodeAddress a with
  | .ram i => Memory.poke m i v
  | .rom _ => m

/-- `MemRead(addr, 2)`: big-endian, each byte address masked on its own (R79). -/
def Memory.read16 (m : Memory) (a : Word) : Word := joinBytes (m.read a) (m.read (a + 1))

/-- `MemWrite(addr, 2, v)`: high byte, then low byte, each decoded on its own (R80). -/
def Memory.write16 (m : Memory) (a : Word) (v : Word) : Memory :=
  (m.write a (hiByte v)).write (a + 1) (loByte v)

/-- What `MemReset` leaves (R86): nothing listed. -/
def Memory.afterReset : Memory := []

end Sys2Proof.Machine
end

