-- ==== Sys2Proof/Machine/State.lean ====
section
/-! DEFINITION. The machine's state (10_state.md R30), its reset values (R55), and the reasons a step can
stop. -/

namespace Sys2Proof.Machine

/-- The complete state of the block (R30): there is no other. -/
structure State where
  /-- accumulator A (R31) -/
  a : Byte
  /-- accumulator B (R31) -/
  b : Byte
  /-- direct-page register, inert (R33) -/
  dp : Byte
  /-- condition codes E F H I N Z V C, bits 7 to 0 (R34) -/
  cc : Byte
  /-- index register X (R46) -/
  x : Word
  /-- index register Y, inert (R47) -/
  y : Word
  /-- system stack pointer, inert (R48) -/
  s : Word
  /-- user stack pointer, inert (R48) -/
  u : Word
  /-- program counter: between steps the address of the next opcode byte (R49) -/
  pc : Word
  /-- HALTED (true) or RUNNING (false) (R53) -/
  halted : Bool
  /-- the RAM and ROM arrays (R70) -/
  mem : Memory
deriving DecidableEq, Repr

/-- Why the machine would stop with a fault. There is no constructor: no instruction, access or fetch
faults (60_exceptions.md R280), `Step` is total (43_control.md R260), and an invalid opcode is a next
state with `halted` set (R263, R286). Safe: there is nothing to raise. -/
inductive Fault where
deriving DecidableEq, Repr

/-- Why the model would refuse an instruction. -/
inductive Refusal where
  /-- An instruction with no meaning in the model yet, raised by its arm of `exec`. No arm raises it:
  every instruction has its meaning. Safe: the model stops where the hardware goes on. -/
  | notModelled (mnemonic : String)
deriving DecidableEq, Repr

/-- The machine right after `PowerOn`: `MemReset` then `ProcReset` (R312, R55, R86). The pc is the
reset vector's value, which `MemReset` fixes at 0x0000 (R85). Power-on values: notes/assumptions/7.md. -/
def State.reset : State where
  a := 0x00
  b := 0x00
  dp := 0x00
  cc := 0x10
  x := 0x0000
  y := 0x0000
  s := 0x0000
  u := 0x0000
  pc := 0x0000
  halted := false
  mem := Memory.afterReset

/-- D, the composite A:B: a view, not storage (R32). -/
def State.d (st : State) : Word := joinBytes st.a st.b

end Sys2Proof.Machine
end

