-- ==== Sys2Proof/Machine/Flags.lean ====
section
/-! DEFINITION. The condition-code register: its bits, and every flag computation of the spec
(10_state.md R34 to R45). -/

namespace Sys2Proof.Machine

/-- The flags of CC, most significant bit first (R34). -/
inductive Flag where
  | e | f | h | i | n | z | v | c
deriving DecidableEq, Repr

/-- The bit of CC that holds a flag (R34). -/
def Flag.bit : Flag → Nat
  | .e => 7
  | .f => 6
  | .h => 5
  | .i => 4
  | .n => 3
  | .z => 2
  | .v => 1
  | .c => 0

/-- The mask of a flag: 0x80 for E down to 0x01 for C (R34). -/
def Flag.mask (g : Flag) : Byte := (1 : Byte) <<< g.bit

/-- A flag read from a CC value. -/
def flagOf (g : Flag) (cc : Byte) : Bool := cc.getLsbD g.bit

/-- A CC value with one flag written and every other bit kept (R45). -/
def setFlag (g : Flag) (v : Bool) (cc : Byte) : Byte :=
  if v then cc ||| g.mask else cc &&& ~~~g.mask

/-- A flag of the state. -/
def State.flag (st : State) (g : Flag) : Bool := flagOf g st.cc

/-- `UpdateNZ8(v)`: Z iff v = 0, N is bit 7; no other bit changes (R43). -/
def updateNZ8 (v : Byte) (cc : Byte) : Byte :=
  setFlag .n (v.getLsbD 7) (setFlag .z (v == 0) cc)

/-- `UpdateNZ16(v)`: Z iff v = 0, N is bit 15; no other bit changes (R44). -/
def updateNZ16 (v : Word) (cc : Byte) : Byte :=
  setFlag .n (v.getLsbD 15) (setFlag .z (v == 0) cc)

end Sys2Proof.Machine
end

