-- ==== Sys2Proof/Machine/Alu.lean ====
section
/-! DEFINITION. The ALU functions (41_arithmetic.md R200 to R203): each takes the CC value before and
gives the truncated result and the CC value after. V and H are never computed (R220). -/

namespace Sys2Proof.Machine

/-- A result byte, to be written back, and the CC value after the operation. -/
structure AluResult where
  value : Byte
  cc : Byte
deriving DecidableEq, Repr

/-- `ADD8(r, m)`: C iff the untruncated sum exceeds 0xFF (R200). -/
def add8 (cc r m : Byte) : AluResult :=
  let sum : Nat := r.toNat + m.toNat
  let res : Byte := BitVec.ofNat 8 sum
  ⟨res, setFlag .c (decide (0xFF < sum)) (updateNZ8 res cc)⟩

/-- `SUB8(r, m)`: C iff the raw difference is negative (R201). -/
def sub8 (cc r m : Byte) : AluResult :=
  let diff : Int := (r.toNat : Int) - (m.toNat : Int)
  let res : Byte := BitVec.ofInt 8 diff
  ⟨res, setFlag .c (decide (diff < 0)) (updateNZ8 res cc)⟩

/-- `INC8(r)`: C is kept (R202). -/
def inc8 (cc r : Byte) : AluResult :=
  let res : Byte := BitVec.ofNat 8 (r.toNat + 1)
  ⟨res, updateNZ8 res cc⟩

/-- `DEC8(r)`: 0x00 gives 0xFF; C is kept (R203). -/
def dec8 (cc r : Byte) : AluResult :=
  let res : Byte := BitVec.ofInt 8 ((r.toNat : Int) - 1)
  ⟨res, updateNZ8 res cc⟩

end Sys2Proof.Machine
end

