-- ==== Sys2Proof/Machine/Operands.lean ====
section
/-! DEFINITION. Memory as the engine reaches it, and every operand form (20_memory.md R75 to R80;
30_encoding.md R113 to R116; 40_load_store.md R160 to R162; 42_branch.md R240). -/

namespace Sys2Proof.Machine

/-- `MemRead(addr, 1)` (R75). -/
def State.memRead (st : State) (a : Word) : Byte := st.mem.read a

/-- `MemRead(addr, 2)` (R79). -/
def State.memRead16 (st : State) (a : Word) : Word := st.mem.read16 a

/-- `MemWrite(addr, 1, v)` (R76). -/
def State.memWrite (st : State) (a : Word) (v : Byte) : State := { st with mem := st.mem.write a v }

/-- `MemWrite(addr, 2, v)` (R80). -/
def State.memWrite16 (st : State) (a v : Word) : State := { st with mem := st.mem.write16 a v }

/-- DIRECT effective address: the operand byte zero-extended; DP takes no part (R114, R160, R33). -/
def eaDirect (addr8 : Byte) : Word := zext16 addr8

/-- EXTENDED effective address: the operand word (R115, R161). -/
def eaExtended (addr16 : Word) : Word := addr16

/-- IMMEDIATE operand of an 8-bit instruction: the operand byte (R113, R162). -/
def immediate8 (imm8 : Byte) : Byte := imm8

/-- IMMEDIATE operand of LDX: one byte, zero-extended (R113, R169, decision D8). DEDUCED, unsafe:
notes/assumptions/4.md. -/
def immediate16 (imm8 : Byte) : Word := zext16 imm8

/-- The branch target: the PC past the offset byte plus the sign-extended offset, modulo 2^16 (R240). -/
def branchTarget (pcAfter : Word) (off8 : Byte) : Word := pcAfter + sext16 off8

end Sys2Proof.Machine
end

