-- ==== Sys2Proof/Machine/Ops.lean ====
section
/-! DEFINITION. The operations the instructions share: fetching, the PC's advance, the register
transfers, the halt, the one exceptional event, and the resets. -/

namespace Sys2Proof.Machine

/-! ## Fetch and PC -/

/-- PC past `n` fetched bytes, modulo 2^16 (R49, R50, R52). -/
def State.advance (st : State) (n : Nat) : State := { st with pc := st.pc + BitVec.ofNat 16 n }

/-- `FetchByte()` (R50). -/
def fetchByte (st : State) : Byte × State := (st.memRead st.pc, st.advance 1)

/-- `FetchWord()`: the first byte fetched is the high byte (R51). -/
def fetchWord (st : State) : Word × State :=
  let hi := fetchByte st
  let lo := fetchByte hi.2
  (joinBytes hi.1 lo.1, lo.2)

/-! ## Accumulators and X -/

/-- The two accumulators (R31). -/
inductive Acc where
  | a | b
deriving DecidableEq, Repr

/-- An accumulator, read. -/
def State.acc (st : State) : Acc → Byte
  | .a => st.a
  | .b => st.b

/-- An accumulator, written. -/
def State.setAcc (st : State) (r : Acc) (v : Byte) : State :=
  match r with
  | .a => { st with a := v }
  | .b => { st with b := v }

/-- Load an 8-bit value into an accumulator; N and Z from it (R178, R43). -/
def loadAcc (r : Acc) (m : Byte) (st : State) : State :=
  { st.setAcc r m with cc := updateNZ8 m st.cc }

/-- Load a 16-bit value into X; N and Z from all 16 bits (R178, R44). -/
def loadX (v : Word) (st : State) : State :=
  { st with x := v, cc := updateNZ16 v st.cc }

/-- Store an accumulator; no flag (R179). -/
def storeAcc (r : Acc) (ea : Word) (st : State) : State := st.memWrite ea (st.acc r)

/-- Store X, high byte first; no flag (R179, R80). -/
def storeX (ea : Word) (st : State) : State := st.memWrite16 ea st.x

/-- Write an ALU result back to its accumulator, and its flags to CC. -/
def writeAlu (r : Acc) (res : AluResult) (st : State) : State :=
  { st.setAcc r res.value with cc := res.cc }

/-- `r <- ADD8(r, m)` (R200). -/
def addAcc (r : Acc) (m : Byte) (st : State) : State := writeAlu r (add8 st.cc (st.acc r) m) st

/-- `r <- SUB8(r, m)` (R201). -/
def subAcc (r : Acc) (m : Byte) (st : State) : State := writeAlu r (sub8 st.cc (st.acc r) m) st

/-- `r <- INC8(r)` (R202). -/
def incAcc (r : Acc) (st : State) : State := writeAlu r (inc8 st.cc (st.acc r)) st

/-- `r <- DEC8(r)` (R203). -/
def decAcc (r : Acc) (st : State) : State := writeAlu r (dec8 st.cc (st.acc r)) st

/-! ## Control -/

/-- The second half of a branch: PC already stands past the offset byte; it moves only if the branch is
taken (R240). -/
def branchIf (taken : Bool) (off8 : Byte) (st : State) : State :=
  if taken then { st with pc := branchTarget st.pc off8 } else st

/-- HALTED (R53). -/
def halt (st : State) : State := { st with halted := true }

/-- `raise InvalidOpcode(op)`: the whole trap mechanism is `halted <- true` (R286). Nothing is saved:
`op` is named only in the trace (R281), and PC keeps the value it had after the opcode fetch. -/
def raiseInvalidOpcode (_op : Byte) (st : State) : State := halt st

/-! ## Resets: the only way out of HALTED (R288) -/

/-- `ProcReset`: registers to their defaults, PC from the reset vector, RUNNING; memory untouched
(R310, R55). -/
def procReset (st : State) : State where
  a := 0x00
  b := 0x00
  dp := 0x00
  cc := 0x10
  x := 0x0000
  y := 0x0000
  s := 0x0000
  u := 0x0000
  pc := st.memRead16 0xFFFE
  halted := false
  mem := st.mem

/-- `MemReset`: memory only (R86, R311). -/
def memReset (st : State) : State := { st with mem := Memory.afterReset }

/-- `PowerOn`: `MemReset` then `ProcReset` (R312). -/
def powerOn (st : State) : State := procReset (memReset st)

end Sys2Proof.Machine
end

