-- ==== Sys2Proof/Machine/Arithmetic.lean ====
section
/-! DEFINITION. Arithmetic: ADDA, ADDB, SUBA, SUBB, INCA, INCB, DECA, DECB (41_arithmetic.md R204 to
R219). A meaning starts with PC at the instruction's opcode byte; `advance` stands for the fetch of
all its bytes. -/

namespace Sys2Proof.Machine

/-- ADDA immediate (R204). -/
def execAddaImm (imm8 : Byte) (s : State) : Host.Outcome State Fault Refusal :=
  .next (addAcc .a (immediate8 imm8) (s.advance 2))

/-- ADDA direct (R205). -/
def execAddaDir (addr8 : Byte) (s : State) : Host.Outcome State Fault Refusal :=
  .next (addAcc .a (s.memRead (eaDirect addr8)) (s.advance 2))

/-- ADDA extended (R206). -/
def execAddaExt (addr16 : Word) (s : State) : Host.Outcome State Fault Refusal :=
  .next (addAcc .a (s.memRead (eaExtended addr16)) (s.advance 3))

/-- ADDB immediate (R207). -/
def execAddbImm (imm8 : Byte) (s : State) : Host.Outcome State Fault Refusal :=
  .next (addAcc .b (immediate8 imm8) (s.advance 2))

/-- ADDB direct (R208). -/
def execAddbDir (addr8 : Byte) (s : State) : Host.Outcome State Fault Refusal :=
  .next (addAcc .b (s.memRead (eaDirect addr8)) (s.advance 2))

/-- ADDB extended (R209). -/
def execAddbExt (addr16 : Word) (s : State) : Host.Outcome State Fault Refusal :=
  .next (addAcc .b (s.memRead (eaExtended addr16)) (s.advance 3))

/-- SUBA immediate (R210). -/
def execSubaImm (imm8 : Byte) (s : State) : Host.Outcome State Fault Refusal :=
  .next (subAcc .a (immediate8 imm8) (s.advance 2))

/-- SUBA direct (R211). -/
def execSubaDir (addr8 : Byte) (s : State) : Host.Outcome State Fault Refusal :=
  .next (subAcc .a (s.memRead (eaDirect addr8)) (s.advance 2))

/-- SUBA extended (R212). -/
def execSubaExt (addr16 : Word) (s : State) : Host.Outcome State Fault Refusal :=
  .next (subAcc .a (s.memRead (eaExtended addr16)) (s.advance 3))

/-- SUBB immediate (R213). -/
def execSubbImm (imm8 : Byte) (s : State) : Host.Outcome State Fault Refusal :=
  .next (subAcc .b (immediate8 imm8) (s.advance 2))

/-- SUBB direct (R214). -/
def execSubbDir (addr8 : Byte) (s : State) : Host.Outcome State Fault Refusal :=
  .next (subAcc .b (s.memRead (eaDirect addr8)) (s.advance 2))

/-- SUBB extended (R215). -/
def execSubbExt (addr16 : Word) (s : State) : Host.Outcome State Fault Refusal :=
  .next (subAcc .b (s.memRead (eaExtended addr16)) (s.advance 3))

/-- INCA (R216). -/
def execInca (s : State) : Host.Outcome State Fault Refusal :=
  .next (incAcc .a (s.advance 1))

/-- INCB (R217). -/
def execIncb (s : State) : Host.Outcome State Fault Refusal :=
  .next (incAcc .b (s.advance 1))

/-- DECA (R218). -/
def execDeca (s : State) : Host.Outcome State Fault Refusal :=
  .next (decAcc .a (s.advance 1))

/-- DECB (R219). -/
def execDecb (s : State) : Host.Outcome State Fault Refusal :=
  .next (decAcc .b (s.advance 1))

end Sys2Proof.Machine
end

