-- ==== Sys2Proof/Machine/Branch.lean ====
section
/-! DEFINITION. Control transfer: BRA, BEQ, BNE (42_branch.md R240 to R243). The offset byte is always
consumed: `advance 2` comes before the test. -/

namespace Sys2Proof.Machine

/-- BRA: always taken (R241). -/
def execBra (off8 : Byte) (s : State) : Host.Outcome State Fault Refusal :=
  .next (branchIf true off8 (s.advance 2))

/-- BEQ: taken when Z = 1 (R242, decision D17). PRESUMED, unsafe: notes/assumptions/11.md. -/
def execBeq (off8 : Byte) (s : State) : Host.Outcome State Fault Refusal :=
  .next (branchIf (s.flag .z) off8 (s.advance 2))

/-- BNE: taken when Z = 0 (R243, decision D17). PRESUMED, unsafe: notes/assumptions/11.md. -/
def execBne (off8 : Byte) (s : State) : Host.Outcome State Fault Refusal :=
  .next (branchIf (!s.flag .z) off8 (s.advance 2))

end Sys2Proof.Machine
end

