-- ==== Sys2Proof/Machine/Control.lean ====
section
/-! DEFINITION. NOP and the END sentinel (43_control.md R261, R262). -/

namespace Sys2Proof.Machine

/-- NOP: only the PC's advance past the opcode byte (R261). -/
def execNop (s : State) : Host.Outcome State Fault Refusal := .next (s.advance 1)

/-- The END sentinel: HALTED, with PC one past the sentinel (R262). A normal end, not an exception. -/
def execEndSentinel (s : State) : Host.Outcome State Fault Refusal := .next (halt (s.advance 1))

end Sys2Proof.Machine
end

