-- ==== Sys2Proof/Machine/LoadStore.lean ====
section
/-! DEFINITION. Loads and stores: LDA, LDB, LDX, STA, STB, STX (40_load_store.md R160 to R180). A meaning
starts with PC at the instruction's opcode byte; `advance` stands for the fetch of all its bytes, so
the state it then works on is the one the spec's pseudocode works on after its operand fetch. -/

namespace Sys2Proof.Machine

/-- LDA immediate (R163). -/
def execLdaImm (imm8 : Byte) (s : State) : Host.Outcome State Fault Refusal :=
  .next (loadAcc .a (immediate8 imm8) (s.advance 2))

/-- LDA direct (R164). -/
def execLdaDir (addr8 : Byte) (s : State) : Host.Outcome State Fault Refusal :=
  .next (loadAcc .a (s.memRead (eaDirect addr8)) (s.advance 2))

/-- LDA extended (R165). -/
def execLdaExt (addr16 : Word) (s : State) : Host.Outcome State Fault Refusal :=
  .next (loadAcc .a (s.memRead (eaExtended addr16)) (s.advance 3))

/-- LDB immediate (R166). -/
def execLdbImm (imm8 : Byte) (s : State) : Host.Outcome State Fault Refusal :=
  .next (loadAcc .b (immediate8 imm8) (s.advance 2))

/-- LDB direct (R167). -/
def execLdbDir (addr8 : Byte) (s : State) : Host.Outcome State Fault Refusal :=
  .next (loadAcc .b (s.memRead (eaDirect addr8)) (s.advance 2))

/-- LDB extended (R168). -/
def execLdbExt (addr16 : Word) (s : State) : Host.Outcome State Fault Refusal :=
  .next (loadAcc .b (s.memRead (eaExtended addr16)) (s.advance 3))

/-- LDX immediate (R169): one operand byte, zero-extended (decision D8). -/
def execLdxImm (imm8 : Byte) (s : State) : Host.Outcome State Fault Refusal :=
  .next (loadX (immediate16 imm8) (s.advance 2))

/-- LDX direct (R170): big-endian (decision D9). -/
def execLdxDir (addr8 : Byte) (s : State) : Host.Outcome State Fault Refusal :=
  .next (loadX (s.memRead16 (eaDirect addr8)) (s.advance 2))

/-- LDX extended (R171): big-endian (decision D9). -/
def execLdxExt (addr16 : Word) (s : State) : Host.Outcome State Fault Refusal :=
  .next (loadX (s.memRead16 (eaExtended addr16)) (s.advance 3))

/-- STA direct (R172). -/
def execStaDir (addr8 : Byte) (s : State) : Host.Outcome State Fault Refusal :=
  .next (storeAcc .a (eaDirect addr8) (s.advance 2))

/-- STA extended (R173). -/
def execStaExt (addr16 : Word) (s : State) : Host.Outcome State Fault Refusal :=
  .next (storeAcc .a (eaExtended addr16) (s.advance 3))

/-- STB direct (R174). -/
def execStbDir (addr8 : Byte) (s : State) : Host.Outcome State Fault Refusal :=
  .next (storeAcc .b (eaDirect addr8) (s.advance 2))

/-- STB extended (R175). -/
def execStbExt (addr16 : Word) (s : State) : Host.Outcome State Fault Refusal :=
  .next (storeAcc .b (eaExtended addr16) (s.advance 3))

/-- STX direct (R176). -/
def execStxDir (addr8 : Byte) (s : State) : Host.Outcome State Fault Refusal :=
  .next (storeX (eaDirect addr8) (s.advance 2))

/-- STX extended (R177). -/
def execStxExt (addr16 : Word) (s : State) : Host.Outcome State Fault Refusal :=
  .next (storeX (eaExtended addr16) (s.advance 3))

end Sys2Proof.Machine
end

