-- ==== Sys2Proof/Syntax.lean ====
section
/-! DEFINITION. Instructions, mnemonics, addressing modes and the assembler's Instruction record
(30_encoding.md R111, R119, R126; spec/opcode_table.json). -/

namespace Sys2Proof

/-- The 18 mnemonics of R119. The END sentinel has none (R123). -/
inductive Mnemonic where
  | LDA | LDB | LDX | STA | STB | STX | ADDA | ADDB | SUBA | SUBB
  | INCA | INCB | DECA | DECB | BRA | BEQ | BNE | NOP
deriving DecidableEq, Repr

/-- The four addressing modes of the encoding LUT (R117). A branch occupies the DIRECT slot (R111). -/
inductive Mode where
  | inherent | immediate | direct | extended
deriving DecidableEq, Repr

/-- `Size(mode)`: bytes of an encoded instruction, a function of the mode alone (R110, R118). -/
def Mode.size : Mode → Nat
  | .inherent => 1
  | .immediate => 2
  | .direct => 2
  | .extended => 3

/-- The operand of one decoded instruction, by format (R111 to R116). -/
inductive Operand where
  /-- format INH: no operand byte -/
  | none
  /-- format IMM: an unsigned literal byte (R113) -/
  | imm (imm8 : Byte)
  /-- format DIR: an 8-bit address (R114) -/
  | dir (addr8 : Byte)
  /-- format EXT: a 16-bit address (R115) -/
  | ext (addr16 : Word)
  /-- format REL: a signed 8-bit offset (R116) -/
  | rel (off8 : Byte)
deriving DecidableEq, Repr

/-- The instructions: one constructor for each row of spec/opcode_table.json, in the table's order.
An operand has exactly the width of its field in the encoding (R111). -/
inductive Instr where
  | endSentinel
  | nop
  | bra (off8 : Byte)
  | bne (off8 : Byte)
  | beq (off8 : Byte)
  | deca
  | inca
  | decb
  | incb
  | subaImm (imm8 : Byte)
  | ldaImm (imm8 : Byte)
  | addaImm (imm8 : Byte)
  | ldxImm (imm8 : Byte)
  | subaDir (addr8 : Byte)
  | ldaDir (addr8 : Byte)
  | staDir (addr8 : Byte)
  | addaDir (addr8 : Byte)
  | ldxDir (addr8 : Byte)
  | stxDir (addr8 : Byte)
  | subaExt (addr16 : Word)
  | ldaExt (addr16 : Word)
  | staExt (addr16 : Word)
  | addaExt (addr16 : Word)
  | ldxExt (addr16 : Word)
  | stxExt (addr16 : Word)
  | subbImm (imm8 : Byte)
  | ldbImm (imm8 : Byte)
  | addbImm (imm8 : Byte)
  | subbDir (addr8 : Byte)
  | ldbDir (addr8 : Byte)
  | stbDir (addr8 : Byte)
  | addbDir (addr8 : Byte)
  | subbExt (addr16 : Word)
  | ldbExt (addr16 : Word)
  | stbExt (addr16 : Word)
  | addbExt (addr16 : Word)
deriving DecidableEq, Repr

/-- An instruction without its operand: the 35 defined (mnemonic, mode) pairs of R119 and the END
sentinel. It is what one opcode byte stands for (R121). -/
inductive Form where
  | endSentinel | nop | bra | bne | beq | deca | inca | decb | incb
  | subaImm | ldaImm | addaImm | ldxImm
  | subaDir | ldaDir | staDir | addaDir | ldxDir | stxDir
  | subaExt | ldaExt | staExt | addaExt | ldxExt | stxExt
  | subbImm | ldbImm | addbImm | subbDir | ldbDir | stbDir | addbDir
  | subbExt | ldbExt | stbExt | addbExt
deriving DecidableEq, Repr

/-- The 36 forms in the order of the opcode table. -/
def Form.all : List Form :=
  [.endSentinel, .nop, .bra, .bne, .beq, .deca, .inca, .decb, .incb,
   .subaImm, .ldaImm, .addaImm, .ldxImm,
   .subaDir, .ldaDir, .staDir, .addaDir, .ldxDir, .stxDir,
   .subaExt, .ldaExt, .staExt, .addaExt, .ldxExt, .stxExt,
   .subbImm, .ldbImm, .addbImm, .subbDir, .ldbDir, .stbDir, .addbDir,
   .subbExt, .ldbExt, .stbExt, .addbExt]

/-- The assembler's Instruction record, the loader's input (R126). The opcode byte and the size are
derived from it through the LUT (`Record.opcode`, `Record.size`). The mnemonic is an upper-case
identifier, not always a known one (R124). The operand may be wider than the bytes emitted; an
INHERENT record stores 0. -/
structure Record where
  mnemonic : List Char
  mode : Mode
  operand : Nat
deriving DecidableEq, Repr

/-- What the loader loads: records in order (R93). -/
abbrev Program := List Record

/-- The encoded size of a record: `Size(mode)` (R126, R118). -/
def Record.size (r : Record) : Nat := r.mode.size

/-- The encoded size of a program: where the loader's cursor ends (R93). -/
def Program.size (p : Program) : Nat := (p.map Record.size).sum

end Sys2Proof
end

