-- ==== Sys2Proof/Machine/Dispatch.lean ====
section
/-! DEFINITION. One arm per instruction, in the opcode table's order: each calls its meaning. -/

namespace Sys2Proof.Machine

def exec (i : Instr) (s : State) : Host.Outcome State Fault Refusal :=
  match i with
  | .endSentinel => Sys2Proof.Machine.execEndSentinel s
  | .nop => Sys2Proof.Machine.execNop s
  | .bra off8 => Sys2Proof.Machine.execBra off8 s
  | .bne off8 => Sys2Proof.Machine.execBne off8 s
  | .beq off8 => Sys2Proof.Machine.execBeq off8 s
  | .deca => Sys2Proof.Machine.execDeca s
  | .inca => Sys2Proof.Machine.execInca s
  | .decb => Sys2Proof.Machine.execDecb s
  | .incb => Sys2Proof.Machine.execIncb s
  | .subaImm imm8 => Sys2Proof.Machine.execSubaImm imm8 s
  | .ldaImm imm8 => Sys2Proof.Machine.execLdaImm imm8 s
  | .addaImm imm8 => Sys2Proof.Machine.execAddaImm imm8 s
  | .ldxImm imm8 => Sys2Proof.Machine.execLdxImm imm8 s
  | .subaDir addr8 => Sys2Proof.Machine.execSubaDir addr8 s
  | .ldaDir addr8 => Sys2Proof.Machine.execLdaDir addr8 s
  | .staDir addr8 => Sys2Proof.Machine.execStaDir addr8 s
  | .addaDir addr8 => Sys2Proof.Machine.execAddaDir addr8 s
  | .ldxDir addr8 => Sys2Proof.Machine.execLdxDir addr8 s
  | .stxDir addr8 => Sys2Proof.Machine.execStxDir addr8 s
  | .subaExt addr16 => Sys2Proof.Machine.execSubaExt addr16 s
  | .ldaExt addr16 => Sys2Proof.Machine.execLdaExt addr16 s
  | .staExt addr16 => Sys2Proof.Machine.execStaExt addr16 s
  | .addaExt addr16 => Sys2Proof.Machine.execAddaExt addr16 s
  | .ldxExt addr16 => Sys2Proof.Machine.execLdxExt addr16 s
  | .stxExt addr16 => Sys2Proof.Machine.execStxExt addr16 s
  | .subbImm imm8 => Sys2Proof.Machine.execSubbImm imm8 s
  | .ldbImm imm8 => Sys2Proof.Machine.execLdbImm imm8 s
  | .addbImm imm8 => Sys2Proof.Machine.execAddbImm imm8 s
  | .subbDir addr8 => Sys2Proof.Machine.execSubbDir addr8 s
  | .ldbDir addr8 => Sys2Proof.Machine.execLdbDir addr8 s
  | .stbDir addr8 => Sys2Proof.Machine.execStbDir addr8 s
  | .addbDir addr8 => Sys2Proof.Machine.execAddbDir addr8 s
  | .subbExt addr16 => Sys2Proof.Machine.execSubbExt addr16 s
  | .ldbExt addr16 => Sys2Proof.Machine.execLdbExt addr16 s
  | .stbExt addr16 => Sys2Proof.Machine.execStbExt addr16 s
  | .addbExt addr16 => Sys2Proof.Machine.execAddbExt addr16 s

end Sys2Proof.Machine
end

