-- ==== Sys2Proof/Config.lean ====
section
/-! DEFINITION. The parameters the spec leaves to a configuration (00_scope.md R12), and the one free
value. The default values stand where a later repair may mend them: `defaultOpc` and
`defaultEncoding` in Decode.lean, `defaultAsm` and `defaultParams` in Machine/Assembler.lean. -/

namespace Sys2Proof

/-- The encoding parameters of R12. `opc` is OPC on the 35 defined pairs and OPC_END on the END
sentinel; `opcDefault` is OPC_DEFAULT, the LUT's byte for an unrecognised pair (R124). -/
structure EncodingParams where
  opc : Form → Byte
  opcDefault : Byte

/-- The assembler's parameters of R12: COMMENT_CHAR and HEX_MARKER. -/
structure AsmParams where
  commentChar : Char
  hexMarker : Char
deriving DecidableEq, Repr

/-- A configuration of the whole block: the five parameters of R12. The engine, the loader and the host's
operations take it as an argument; it is fixed for a machine and no part of its state. -/
structure Params where
  encoding : EncodingParams
  asm : AsmParams

/-- OPC_DEFAULT, which the spec leaves OPEN (R12, R124, decision D4): a free value with no body, so
that nothing can be proved of which byte it is. DESIGN CHOICE, safe: notes/assumptions/3.md. -/
opaque Config.opcDefault : Byte

end Sys2Proof
end

