-- ==== Sys2Proof/WellFormed.lean ====
section
/-! DEFINITION. The checks the spec puts on a configuration, a record and a program. -/

namespace Sys2Proof

/-- Every `Instr` is well formed: its operand's type is exactly the field of its encoding (R111), and
the spec puts no other condition on an operand (R220 (f), R240: no reserved operand, no illegal
target). The checks below can fail. -/
def Instr.wellFormed (_ : Instr) : Bool := true

/-- A legal opcode map: OPC is injective and no value equals OPC_END (R12, R119), that is, `opc` gives
the 36 forms 36 bytes. OPC_DEFAULT has no constraint. -/
def EncodingParams.legal (c : EncodingParams) : Bool := decide (Form.all.map c.opc).Nodup

/-- An ASCII letter. -/
def isLetter (c : Char) : Bool :=
  (decide (65 ≤ c.toNat) && decide (c.toNat ≤ 90)) || (decide (97 ≤ c.toNat) && decide (c.toNat ≤ 122))

/-- A decimal digit. -/
def isDigit (c : Char) : Bool := decide (48 ≤ c.toNat) && decide (c.toNat ≤ 57)

/-- White space inside a line: space, tab, carriage return (R127). -/
def isSpace (c : Char) : Bool := c == ' ' || c == '\t' || c == '\r'

/-- The constraints of R12: COMMENT_CHAR is not `#`, `$`, a digit, a letter or white space, and HEX_MARKER is
"as the source's example", which is `$` (DEDUCED: notes/assumptions/15.md). -/
def AsmParams.legal (p : AsmParams) : Bool :=
  p.hexMarker == '$' && !(p.commentChar == '#' || p.commentChar == '$' || p.commentChar == '\n'
    || isDigit p.commentChar || isLetter p.commentChar || isSpace p.commentChar)

/-- A legal configuration (R12). -/
def Params.legal (k : Params) : Bool := k.encoding.legal && k.asm.legal

/-- An identifier: a letter followed by letters or digits (R134). -/
def isIdentifier : List Char → Bool
  | [] => false
  | c :: cs => isLetter c && cs.all fun d => isLetter d || isDigit d

/-- What the assembler can hand the loader (R126, R133): an identifier for a mnemonic, an operand that
was a literal 0 to 65535, and 0 where the mode has no operand. -/
def Record.wellFormed (r : Record) : Bool :=
  isIdentifier r.mnemonic && decide (r.operand ≤ 0xFFFF) && (r.mode != .inherent || r.operand == 0)

/-- The loader's bound: at most 0x8000 bytes, so that every byte lands in RAM (R95, decision D14). -/
def Program.fits (p : Program) : Bool := decide (Program.size p ≤ 0x8000)

end Sys2Proof
end

