-- ==== Sys2Proof/Decode.lean ====
section
/-! DEFINITION. The encoding look-up table, the decoder, and after it the encoder (30_encoding.md R110 to
R126). One table, `defaultOpc`, serves both, as R117 asks; the decoder matches whole bytes (R120). -/

namespace Sys2Proof

open Sys2Proof.Machine (joinBytes hiByte loByte)

/-! ## What a form is: mnemonic, mode, opcode byte -/

/-- The LUT row's mnemonic; the END sentinel has none (R119, R123). -/
def Form.mnemonic : Form → Option Mnemonic
  | .endSentinel => none
  | .nop => some .NOP
  | .bra => some .BRA
  | .bne => some .BNE
  | .beq => some .BEQ
  | .deca => some .DECA
  | .inca => some .INCA
  | .decb => some .DECB
  | .incb => some .INCB
  | .subaImm | .subaDir | .subaExt => some .SUBA
  | .ldaImm | .ldaDir | .ldaExt => some .LDA
  | .addaImm | .addaDir | .addaExt => some .ADDA
  | .ldxImm | .ldxDir | .ldxExt => some .LDX
  | .staDir | .staExt => some .STA
  | .stxDir | .stxExt => some .STX
  | .subbImm | .subbDir | .subbExt => some .SUBB
  | .ldbImm | .ldbDir | .ldbExt => some .LDB
  | .addbImm | .addbDir | .addbExt => some .ADDB
  | .stbDir | .stbExt => some .STB

/-- The LUT row's addressing mode; a branch is in the DIRECT slot (R111, decision D7). -/
def Form.mode : Form → Mode
  | .endSentinel | .nop | .deca | .inca | .decb | .incb => .inherent
  | .subaImm | .ldaImm | .addaImm | .ldxImm | .subbImm | .ldbImm | .addbImm => .immediate
  | .bra | .bne | .beq => .direct
  | .subaDir | .ldaDir | .staDir | .addaDir | .ldxDir | .stxDir => .direct
  | .subbDir | .ldbDir | .stbDir | .addbDir => .direct
  | .subaExt | .ldaExt | .staExt | .addaExt | .ldxExt | .stxExt => .extended
  | .subbExt | .ldbExt | .stbExt | .addbExt => .extended

/-- Bytes of an instruction of this form (R110, R118). -/
def Form.size (f : Form) : Nat := f.mode.size

/-- The default OPC and OPC_END (R119, decisions D2, D3). The spec takes the values from general
knowledge of the MC6809, and 0x00 as its own choice. PRESUMED, unsafe: notes/assumptions/1.md, 2.md. -/
def defaultOpc : Form → Byte
  | .endSentinel => 0x00
  | .nop => 0x12
  | .bra => 0x20
  | .bne => 0x26
  | .beq => 0x27
  | .deca => 0x4A
  | .inca => 0x4C
  | .decb => 0x5A
  | .incb => 0x5C
  | .subaImm => 0x80
  | .ldaImm => 0x86
  | .addaImm => 0x8B
  | .ldxImm => 0x8E
  | .subaDir => 0x90
  | .ldaDir => 0x96
  | .staDir => 0x97
  | .addaDir => 0x9B
  | .ldxDir => 0x9E
  | .stxDir => 0x9F
  | .subaExt => 0xB0
  | .ldaExt => 0xB6
  | .staExt => 0xB7
  | .addaExt => 0xBB
  | .ldxExt => 0xBE
  | .stxExt => 0xBF
  | .subbImm => 0xC0
  | .ldbImm => 0xC6
  | .addbImm => 0xCB
  | .subbDir => 0xD0
  | .ldbDir => 0xD6
  | .stbDir => 0xD7
  | .addbDir => 0xDB
  | .subbExt => 0xF0
  | .ldbExt => 0xF6
  | .stbExt => 0xF7
  | .addbExt => 0xFB

/-- The configuration the machine runs with: the defaults of R12, and OPC_DEFAULT left open. -/
def defaultEncoding : EncodingParams := ⟨defaultOpc, Config.opcDefault⟩

/-! ## The encoding LUT (R117) -/

/-- The spelling of a mnemonic, upper case (R119, decision D5). -/
def Mnemonic.name : Mnemonic → List Char
  | .LDA => ['L', 'D', 'A']
  | .LDB => ['L', 'D', 'B']
  | .LDX => ['L', 'D', 'X']
  | .STA => ['S', 'T', 'A']
  | .STB => ['S', 'T', 'B']
  | .STX => ['S', 'T', 'X']
  | .ADDA => ['A', 'D', 'D', 'A']
  | .ADDB => ['A', 'D', 'D', 'B']
  | .SUBA => ['S', 'U', 'B', 'A']
  | .SUBB => ['S', 'U', 'B', 'B']
  | .INCA => ['I', 'N', 'C', 'A']
  | .INCB => ['I', 'N', 'C', 'B']
  | .DECA => ['D', 'E', 'C', 'A']
  | .DECB => ['D', 'E', 'C', 'B']
  | .BRA => ['B', 'R', 'A']
  | .BEQ => ['B', 'E', 'Q']
  | .BNE => ['B', 'N', 'E']
  | .NOP => ['N', 'O', 'P']

/-- The form of a pair of an identifier and a mode, if it is one of the 35 defined pairs (R117, R119). -/
def lutForm (mnemonic : List Char) (mode : Mode) : Option Form :=
  Form.all.find? fun f => f.mnemonic.map Mnemonic.name == some mnemonic && f.mode == mode

/-- `Opcode(mnemonic, mode)`: total; an unrecognised pair gives OPC_DEFAULT (R117, R124). -/
def opcodeOf (c : EncodingParams) (mnemonic : List Char) (mode : Mode) : Byte :=
  match lutForm mnemonic mode with
  | some f => c.opc f
  | none => c.opcDefault

/-- The record's opcode byte, derived through the LUT (R126). -/
def Record.opcode (c : EncodingParams) (r : Record) : Byte := opcodeOf c r.mnemonic r.mode

/-! ## The decoder (R121) -/

/-- Why an opcode byte does not decode. -/
inductive DecodeError where
  /-- The byte is in no row of the map (R122). `Step` answers it with the fail-stop (R263). -/
  | invalidOpcode (op : Byte)
deriving DecidableEq, Repr

/-- The form an opcode byte stands for, if any (R120, R122). -/
def formOf (c : EncodingParams) (op : Byte) : Option Form :=
  Form.all.find? fun f => c.opc f == op

/-- The instruction of a form, from the two bytes that follow its opcode: one, both or neither is an
operand byte (R111). An EXTENDED address has its high byte first (R115). -/
def Form.build (f : Form) (b1 b2 : Byte) : Instr :=
  match f with
  | .endSentinel => .endSentinel
  | .nop => .nop
  | .bra => .bra b1
  | .bne => .bne b1
  | .beq => .beq b1
  | .deca => .deca
  | .inca => .inca
  | .decb => .decb
  | .incb => .incb
  | .subaImm => .subaImm b1
  | .ldaImm => .ldaImm b1
  | .addaImm => .addaImm b1
  | .ldxImm => .ldxImm b1
  | .subaDir => .subaDir b1
  | .ldaDir => .ldaDir b1
  | .staDir => .staDir b1
  | .addaDir => .addaDir b1
  | .ldxDir => .ldxDir b1
  | .stxDir => .stxDir b1
  | .subaExt => .subaExt (joinBytes b1 b2)
  | .ldaExt => .ldaExt (joinBytes b1 b2)
  | .staExt => .staExt (joinBytes b1 b2)
  | .addaExt => .addaExt (joinBytes b1 b2)
  | .ldxExt => .ldxExt (joinBytes b1 b2)
  | .stxExt => .stxExt (joinBytes b1 b2)
  | .subbImm => .subbImm b1
  | .ldbImm => .ldbImm b1
  | .addbImm => .addbImm b1
  | .subbDir => .subbDir b1
  | .ldbDir => .ldbDir b1
  | .stbDir => .stbDir b1
  | .addbDir => .addbDir b1
  | .subbExt => .subbExt (joinBytes b1 b2)
  | .ldbExt => .ldbExt (joinBytes b1 b2)
  | .stbExt => .stbExt (joinBytes b1 b2)
  | .addbExt => .addbExt (joinBytes b1 b2)

/-- Decoding under any configuration: by the opcode byte alone (R121). Total; an opcode byte outside
the map is rejected by name. Bytes past the instruction's size are ignored. -/
def decodeWith (c : EncodingParams) (op b1 b2 : Byte) : Except DecodeError Instr :=
  match formOf c op with
  | some f => .ok (f.build b1 b2)
  | none => .error (.invalidOpcode op)

/-- The engine's decoder: the default configuration. -/
def decode (op b1 b2 : Byte) : Except DecodeError Instr := decodeWith defaultEncoding op b1 b2

/-- Why a list of bytes does not begin with a whole instruction. -/
inductive ImageError where
  /-- the first byte is no opcode (R122) -/
  | invalidOpcode (op : Byte)
  /-- the list ends before the instruction does; memory never does, this is for byte lists -/
  | truncated
deriving DecidableEq, Repr

/-- Decoding the first instruction of a list of bytes: the instruction and the rest, `Size(mode)`
bytes on (R110, R121). -/
def decodeBytesWith (c : EncodingParams) : List Byte → Except ImageError (Instr × List Byte)
  | [] => .error .truncated
  | op :: rest =>
    match formOf c op with
    | none => .error (.invalidOpcode op)
    | some f =>
      match f.size, rest with
      | 1, rest => .ok (f.build 0 0, rest)
      | 2, b1 :: rest => .ok (f.build b1 0, rest)
      | 3, b1 :: b2 :: rest => .ok (f.build b1 b2, rest)
      | _, _ => .error .truncated

/-- `decodeBytesWith` under the default configuration. -/
def decodeBytes (bs : List Byte) : Except ImageError (Instr × List Byte) :=
  decodeBytesWith defaultEncoding bs

/-! ## The encoder -/

/-- The form of an instruction. -/
def Instr.form : Instr → Form
  | .endSentinel => .endSentinel
  | .nop => .nop
  | .bra _ => .bra
  | .bne _ => .bne
  | .beq _ => .beq
  | .deca => .deca
  | .inca => .inca
  | .decb => .decb
  | .incb => .incb
  | .subaImm _ => .subaImm
  | .ldaImm _ => .ldaImm
  | .addaImm _ => .addaImm
  | .ldxImm _ => .ldxImm
  | .subaDir _ => .subaDir
  | .ldaDir _ => .ldaDir
  | .staDir _ => .staDir
  | .addaDir _ => .addaDir
  | .ldxDir _ => .ldxDir
  | .stxDir _ => .stxDir
  | .subaExt _ => .subaExt
  | .ldaExt _ => .ldaExt
  | .staExt _ => .staExt
  | .addaExt _ => .addaExt
  | .ldxExt _ => .ldxExt
  | .stxExt _ => .stxExt
  | .subbImm _ => .subbImm
  | .ldbImm _ => .ldbImm
  | .addbImm _ => .addbImm
  | .subbDir _ => .subbDir
  | .ldbDir _ => .ldbDir
  | .stbDir _ => .stbDir
  | .addbDir _ => .addbDir
  | .subbExt _ => .subbExt
  | .ldbExt _ => .ldbExt
  | .stbExt _ => .stbExt
  | .addbExt _ => .addbExt

/-- The operand of an instruction, with its format (R111). -/
def Instr.operand : Instr → Operand
  | .endSentinel | .nop | .deca | .inca | .decb | .incb => .none
  | .bra r | .bne r | .beq r => .rel r
  | .subaImm m | .ldaImm m | .addaImm m | .ldxImm m | .subbImm m | .ldbImm m | .addbImm m => .imm m
  | .subaDir a | .ldaDir a | .staDir a | .addaDir a | .ldxDir a | .stxDir a => .dir a
  | .subbDir a | .ldbDir a | .stbDir a | .addbDir a => .dir a
  | .subaExt a | .ldaExt a | .staExt a | .addaExt a | .ldxExt a | .stxExt a => .ext a
  | .subbExt a | .ldbExt a | .stbExt a | .addbExt a => .ext a

/-- The operand bytes, in the order they lie after the opcode (R111). -/
def Operand.bytes : Operand → List Byte
  | .none => []
  | .imm m => [m]
  | .dir a => [a]
  | .ext a => [hiByte a, loByte a]
  | .rel r => [r]

/-- Bytes of an instruction (R110). -/
def Instr.size (i : Instr) : Nat := i.form.size

/-- The bytes of an instruction under any configuration, lowest address first (R111). -/
def encodeWith (c : EncodingParams) (i : Instr) : List Byte := c.opc i.form :: i.operand.bytes

/-- The bytes of an instruction under the default configuration. -/
def encode (i : Instr) : List Byte := encodeWith defaultEncoding i

/-! ## Instructions as the opcode table numbers them -/

/-- Byte `k` of an instruction whose bits are `w`: bit 0 of `w` is the least significant bit of byte 0,
the opcode; bits at and above `nbits` are 0. -/
def tableByte (nbits w k : Nat) : Byte := BitVec.ofNat 8 ((w % 2 ^ nbits) / 2 ^ (8 * k))

/-- The instruction the decoder reads from the bits `w` of a row of spec/opcode_table.json. -/
def decodeTableWord (nbits w : Nat) : Option Instr :=
  match decode (tableByte nbits w 0) (tableByte nbits w 1) (tableByte nbits w 2) with
  | .ok i => some i
  | .error _ => none

end Sys2Proof
end

