-- ==== Sys2Proof/Machine/Fetch.lean ====
section
/-! DEFINITION. Fetch and decode (43_control.md R260; 10_state.md R50; 20_memory.md R90). -/

namespace Sys2Proof.Machine

/-- The instruction at PC under a configuration, or the invalid opcode byte there. The fetches go through `FetchByte`, from
the same memory as data (R90). The two bytes after the opcode are always read and used only as far as
the opcode asks (R121): a read has no side effect (R84), so no agent can tell.
DEDUCED, safe: notes/assumptions/18.md. -/
def fetchDecode (c : EncodingParams) (st : State) : Except DecodeError Instr :=
  let f0 := fetchByte st
  let f1 := fetchByte f0.2
  let f2 := fetchByte f1.2
  decodeWith c f0.1 f1.1 f2.1

/-- The state after an opcode byte in no row of the map: fetched, PC past it, then the fail-stop
(R263, R286). -/
def stepInvalid (op : Byte) (st : State) : State := raiseInvalidOpcode op (fetchByte st).2

/-- The state a fetch needs to find given bytes at PC: those bytes put into the array cell each address
selects (ROM included: this is no operation of the machine), and RUNNING. -/
def placeAtPc (b0 b1 b2 : Byte) (st : State) : State :=
  { st with
    halted := false
    mem := ((st.mem.poke st.pc.toNat b0).poke (st.pc + 1).toNat b1).poke (st.pc + 2).toNat b2 }

end Sys2Proof.Machine
end

