-- ==== Sys2Proof/Machine/Engine.lean ====
section
/-! DEFINITION. The one operation of the Processor Engine, under any configuration of the opcode bytes
(43_control.md R260, R267; 00_scope.md R12). -/

namespace Sys2Proof.Machine

/-- `Step` under the map `c`: nothing when HALTED; otherwise one whole instruction, or the fail-stop of a
byte that is no opcode of `c`. -/
def stepWith (c : EncodingParams) (s : State) : Host.Outcome State Fault Refusal :=
  if s.halted then .next s
  else
    match fetchDecode c s with
    | .ok i => exec i s
    | .error (.invalidOpcode op) => .next (stepInvalid op s)

end Sys2Proof.Machine
end

