-- ==== Sys2Proof/Machine/Step.lean ====
section
/-! DEFINITION. The step of the machine the host runs: the engine under the default configuration. -/

namespace Sys2Proof.Machine

/-- `Step` under the default OPC and OPC_END (R119, R260). -/
def step (s : State) : Host.Outcome State Fault Refusal := stepWith defaultEncoding s

/-- `s` with the instruction whose bits are `w` (the bits at and above `nbits` zero) at PC, its longest
form's three bytes, and RUNNING: what the very next step fetches and runs. -/
def State.withFetchWord (s : State) (nbits w : Nat) : State :=
  placeAtPc (tableByte nbits w 0) (tableByte nbits w 1) (tableByte nbits w 2) s

end Sys2Proof.Machine
end

