-- ==== Sys2Proof/Machine/Assembler.lean ====
section
/-! DEFINITION. The one-pass assembler (30_encoding.md R127 to R139): source text to records. It reads
nothing but its text and the LUT, and touches no hardware state (R139). Conventions the source leaves
open: notes/assumptions/15.md and 16.md. -/

namespace Sys2Proof.Machine

/-- The default COMMENT_CHAR and HEX_MARKER (R12, decisions D18, D19). -/
def defaultAsm : AsmParams := ⟨';', '$'⟩

/-- The default configuration of the block (R12). -/
def defaultParams : Params := ⟨defaultEncoding, defaultAsm⟩

/-- Why an assembly fails (R134, R135). -/
inductive AsmError where
  /-- a line that does not parse: its 1-based number and its text -/
  | syntaxError (line : Nat) (text : List Char)
  /-- the input ended without an `END` line -/
  | missingEnd
deriving DecidableEq, Repr

/-- A character in upper case (R129). -/
def upperChar (c : Char) : Char :=
  if 97 ≤ c.toNat ∧ c.toNat ≤ 122 then Char.ofNat (c.toNat - 32) else c

/-- A token in upper case (R129). -/
def upperText (t : List Char) : List Char := t.map upperChar

/-- The newline-separated lines of a text (R127). -/
def splitLines : List Char → List (List Char)
  | [] => [[]]
  | c :: cs =>
    match splitLines cs with
    | [] => [[c]]
    | l :: ls => if c = '\n' then [] :: l :: ls else (c :: l) :: ls

/-- A line without leading and trailing white space (R127). -/
def trim (t : List Char) : List Char :=
  (((t.dropWhile isSpace).reverse).dropWhile isSpace).reverse

/-- The white-space separated tokens of a line (R129); `tok` is the token read so far, reversed. -/
def tokensFrom : List Char → List Char → List (List Char)
  | tok, [] => if tok.isEmpty then [] else [tok.reverse]
  | tok, c :: cs =>
    if isSpace c then
      if tok.isEmpty then tokensFrom [] cs else tok.reverse :: tokensFrom [] cs
    else tokensFrom (c :: tok) cs

/-- The tokens of a line. -/
def tokens (line : List Char) : List (List Char) := tokensFrom [] line

/-- The value of a hexadecimal digit of either case (R133). -/
def hexDigit (c : Char) : Option Nat :=
  if isDigit c then some (c.toNat - 48)
  else if 65 ≤ c.toNat ∧ c.toNat ≤ 70 then some (c.toNat - 55)
  else if 97 ≤ c.toNat ∧ c.toNat ≤ 102 then some (c.toNat - 87)
  else none

/-- The value of a decimal digit (R133). -/
def decDigit (c : Char) : Option Nat := if isDigit c then some (c.toNat - 48) else none

/-- The value of a string of digits in a base, on top of the digits read so far. -/
def digitsFrom (digit : Char → Option Nat) (base : Nat) : Nat → List Char → Option Nat
  | acc, [] => some acc
  | acc, c :: cs =>
    match digit c with
    | some d => digitsFrom digit base (acc * base + d) cs
    | none => none

/-- One or more digits whose value is at most 65535 (R133). -/
def digitsValue (digit : Char → Option Nat) (base : Nat) (t : List Char) : Option Nat :=
  if t.isEmpty then none
  else
    match digitsFrom digit base 0 t with
    | some n => if n ≤ 0xFFFF then some n else none
    | none => none

/-- A numeric literal: HEX_MARKER and hexadecimal digits, or decimal digits, 0 to 65535 (R133). -/
def parseLiteral (p : AsmParams) (t : List Char) : Option Nat :=
  match t with
  | [] => none
  | c :: cs => if c = p.hexMarker then digitsValue hexDigit 16 cs else digitsValue decDigit 10 (c :: cs)

/-- The closed set of mnemonics that stand without an operand (R130, decision D22). -/
def inherentSet : List Mnemonic := [.NOP, .INCA, .INCB, .DECA, .DECB]

/-- Mode and value of an operand token: `#` gives IMMEDIATE (R131); otherwise the value's magnitude
chooses DIRECT or EXTENDED (R132). -/
def parseOperand (p : AsmParams) (t : List Char) : Option (Mode × Nat) :=
  match t with
  | '#' :: cs => (parseLiteral p cs).map fun n => (.immediate, n)
  | t => (parseLiteral p t).map fun n => (if n < 0x100 then .direct else .extended, n)

/-- The record of a tokenised line, or nothing if the line is a syntax error (R129 to R134). A
well-formed mnemonic with an operand is not checked against the LUT (R124, R131). -/
def parseTokens (p : AsmParams) (ts : List (List Char)) : Option Record :=
  match ts with
  | [m] =>
    if inherentSet.any (fun k => k.name == upperText m) then some ⟨upperText m, .inherent, 0⟩ else none
  | [m, t] =>
    if isIdentifier m then (parseOperand p t).map fun o => ⟨upperText m, o.1, o.2⟩ else none
  | _ => none

/-- What one source line is. -/
inductive LineResult where
  /-- blank, or only a comment -/
  | skip
  /-- the `END` directive (R128) -/
  | endOfSource
  | record (r : Record)
  | malformed
deriving DecidableEq, Repr

/-- One line: trim; skip if empty or a comment line; strip an inline comment and trim again; then
`END` in any letter case, or tokens (R127). -/
def parseLine (p : AsmParams) (line : List Char) : LineResult :=
  let body := trim ((trim line).takeWhile fun c => c != p.commentChar)
  if body.isEmpty then .skip
  else if upperText body == ['E', 'N', 'D'] then .endOfSource
  else
    match parseTokens p (tokens body) with
    | some r => .record r
    | none => .malformed

/-- The records of the lines up to `END`; the first line that does not parse ends the assembly, and so
does the end of input (R127, R128, R134, R135). `n` is the number of the first line. -/
def assembleLines (p : AsmParams) : Nat → List (List Char) → Except AsmError Program
  | _, [] => .error .missingEnd
  | n, line :: lines =>
    match parseLine p line with
    | .skip => assembleLines p (n + 1) lines
    | .endOfSource => .ok []
    | .malformed => .error (.syntaxError n line)
    | .record r =>
      match assembleLines p (n + 1) lines with
      | .ok rs => .ok (r :: rs)
      | .error e => .error e

/-- `Assemble(text)` under any parameters (R127). -/
def assembleWith (p : AsmParams) (text : List Char) : Except AsmError Program :=
  assembleLines p 1 (splitLines text)

/-- `Assemble(text)` under the default parameters. -/
def assemble (text : List Char) : Except AsmError Program := assembleWith defaultAsm text

end Sys2Proof.Machine
end

