-- ==== Sys2Proof/Machine/Loader.lean ====
section
/-! DEFINITION. The loader, the second agent that writes memory (20_memory.md R93 to R97). -/

namespace Sys2Proof.Machine

/-- The operand bytes a record contributes: none, the low byte, or high then low (R94). -/
def recordOperandBytes (r : Record) : List Byte :=
  match r.mode with
  | .inherent => []
  | .immediate | .direct => [BitVec.ofNat 8 r.operand]
  | .extended => [BitVec.ofNat 8 (r.operand / 0x100), BitVec.ofNat 8 r.operand]

/-- The bytes of a record: opcode, then operand bytes (R93, R94). -/
def recordBytesWith (c : EncodingParams) (r : Record) : List Byte := r.opcode c :: recordOperandBytes r

/-- The bytes of a program from address 0 on (R93). -/
def programBytesWith (c : EncodingParams) (p : Program) : List Byte := p.flatMap (recordBytesWith c)

/-- Bytes written one after another from `cursor` on, each through `MemWrite` (R93, R95). -/
def writeBytes : Memory → Nat → List Byte → Memory
  | m, _, [] => m
  | m, cursor, v :: vs => writeBytes (m.write (maskAddr cursor) v) (cursor + 1) vs

/-- The loop of `Load`: each record's bytes at the cursor, which then advances by its size (R93). -/
def loadRecords (c : EncodingParams) : Memory → Nat → Program → Memory
  | m, _, [] => m
  | m, cursor, r :: rs => loadRecords c (writeBytes m cursor (recordBytesWith c r)) (cursor + r.size) rs

/-- Why a program is not loaded. -/
inductive LoadRefusal where
  /-- more than 0x8000 bytes (R95, decision D14). DESIGN CHOICE, safe: notes/assumptions/9.md. -/
  | tooLong
deriving DecidableEq, Repr

/-- `Load(program)` under any configuration: memory bytes from 0x0000 on, and nothing else (R93, R96). A
record with an unrecognised pair loads OPC_DEFAULT's byte, whatever it is (R124). -/
def loadProgramWith (c : EncodingParams) (p : Program) (st : State) : Except LoadRefusal State :=
  if Program.fits p then .ok { st with mem := loadRecords c st.mem 0 p } else .error .tooLong

/-- `Load(program)` under the default configuration. -/
def loadProgram (p : Program) (st : State) : Except LoadRefusal State :=
  loadProgramWith defaultEncoding p st

/-- The engine's instruction that a record stands for, if its pair is one of the 35 (R119, R94). -/
def recordInstr (r : Record) : Option Instr :=
  match lutForm r.mnemonic r.mode with
  | none => none
  | some f =>
    match r.mode with
    | .extended => some (f.build (BitVec.ofNat 8 (r.operand / 0x100)) (BitVec.ofNat 8 r.operand))
    | _ => some (f.build (BitVec.ofNat 8 r.operand) 0)

end Sys2Proof.Machine
end

