-- ==== Sys2Proof/Machine/Trace.lean ====
section
/-! DEFINITION. The trace `Step` returns: an output, not state (43_control.md R265, decision D16).
DESIGN CHOICE, safe: notes/assumptions/14.md. -/

namespace Sys2Proof.Machine

/-- The operand a trace names: the immediate byte or the effective address (R265). -/
inductive TraceOperand where
  | none
  | immediate (imm8 : Byte)
  | address (ea : Word)
deriving DecidableEq, Repr

/-- The value `Step` returns (R265). -/
inductive Trace where
  /-- the step found the engine HALTED (R267) -/
  | halted
  /-- a load, store, arithmetic instruction or NOP, with its mode and resolved operand -/
  | executed (mnemonic : Mnemonic) (mode : Mode) (operand : TraceOperand)
  /-- a branch: its offset, the PC a taken branch goes to, and whether it was taken -/
  | branch (mnemonic : Mnemonic) (off8 : Byte) (target : Word) (taken : Bool)
  /-- the END sentinel (R262) -/
  | endOfProgram
  /-- an invalid opcode, named (R263) -/
  | invalid (op : Byte)
deriving DecidableEq, Repr

/-- The resolved operand of an instruction that is no branch. -/
def traceOperand : Operand → TraceOperand
  | .none => .none
  | .imm m => .immediate (immediate8 m)
  | .dir a => .address (eaDirect a)
  | .ext a => .address (eaExtended a)
  | .rel _ => .none

/-- Whether a branch of this mnemonic is taken in `st` (R241 to R243). -/
def branchTaken (m : Mnemonic) (st : State) : Bool :=
  match m with
  | .BEQ => st.flag .z
  | .BNE => !st.flag .z
  | _ => true

/-- The trace of executing `i` from `st`; mnemonic and mode come from the LUT's naming (R117, R265). -/
def traceOf (i : Instr) (st : State) : Trace :=
  match i.form.mnemonic, i.operand with
  | none, _ => .endOfProgram
  | some m, .rel off8 =>
    .branch m off8 (branchTarget (st.pc + BitVec.ofNat 16 i.size) off8) (branchTaken m st)
  | some m, operand => .executed m i.form.mode (traceOperand operand)

/-- The trace of one `Step` from `st` under the map `c`. -/
def stepTrace (c : EncodingParams) (st : State) : Trace :=
  if st.halted then .halted
  else
    match fetchDecode c st with
    | .ok i => traceOf i st
    | .error (.invalidOpcode op) => .invalid op

end Sys2Proof.Machine
end

