-- ==== Sys2Proof/Machine/HostOps.lean ====
section
/-! DEFINITION. The operations of the host at the boundary of the block, each atomic (00_scope.md R9,
R10; 10_state.md R58; 43_control.md R264), under any configuration of the block (R12). -/

namespace Sys2Proof.Machine

/-- What `Snapshot` shows of the registers (R58). Memory is read a byte at a time: `HostOp.readByte`. -/
structure Snapshot where
  a : Byte
  b : Byte
  d : Word
  dp : Byte
  cc : Byte
  x : Word
  y : Word
  s : Word
  u : Word
  pc : Word
  halted : Bool
deriving DecidableEq, Repr

/-- `Snapshot`: every register, read only (R58). -/
def snapshot (st : State) : Snapshot where
  a := st.a
  b := st.b
  d := st.d
  dp := st.dp
  cc := st.cc
  x := st.x
  y := st.y
  s := st.s
  u := st.u
  pc := st.pc
  halted := st.halted

/-- One `Step` and its trace. `stepWith` always answers a next state (R260); the other arms keep the
function total. -/
def stepOnce (c : EncodingParams) (st : State) : State × Trace :=
  match stepWith c st with
  | .next t => (t, stepTrace c st)
  | .fault _ => (st, stepTrace c st)
  | .refused _ => (st, stepTrace c st)

/-- `Run` under fuel: `Step` until HALTED (R264). `none` says that `fuel` steps did not halt; it is never
an end state. Safe: notes/assumptions/19.md. -/
def runFor (c : EncodingParams) : Nat → State → Option State
  | 0, st => if st.halted then some st else none
  | n + 1, st => if st.halted then some st else runFor c n (stepOnce c st).1

/-- `n` steps, which is what a host that calls `Step` n times does. -/
def stepTimes (c : EncodingParams) : Nat → State → State
  | 0, st => st
  | n + 1, st => stepTimes c n (stepOnce c st).1

/-- The operations the host can issue (R9). -/
inductive HostOp where
  | powerOn
  | memReset
  | procReset
  /-- source text to records; touches no state (R139) -/
  | assemble (text : List Char)
  | load (program : Program)
  /-- `Assemble`, then `Load` on success only (R96) -/
  | assembleAndLoad (text : List Char)
  | step
  /-- `Run`, cut short between two steps after `fuel` of them (R8, R264) -/
  | run (fuel : Nat)
  | snapshot
  /-- a memory byte of a snapshot (R58) -/
  | readByte (addr : Word)
deriving DecidableEq, Repr

/-- What the host is told (R10). -/
inductive HostReply where
  | done
  | program (p : Program)
  | asmError (e : AsmError)
  | loadRefused (r : LoadRefusal)
  | trace (t : Trace)
  /-- `Run` returned: the engine is HALTED -/
  | ranToHalt
  /-- the fuel ended first: not halted -/
  | notHalted
  | registers (s : Snapshot)
  | byte (v : Byte)
deriving DecidableEq, Repr

/-- `Load`, with the reply. A refused program changes nothing. -/
def performLoad (c : EncodingParams) (p : Program) (st : State) : State × HostReply :=
  match loadProgramWith c p st with
  | .ok t => (t, .done)
  | .error r => (st, .loadRefused r)

/-- One operation of the host on a block of configuration `k`, with its reply. -/
def hostPerform (k : Params) (op : HostOp) (st : State) : State × HostReply :=
  match op with
  | .powerOn => (powerOn st, .done)
  | .memReset => (memReset st, .done)
  | .procReset => (procReset st, .done)
  | .assemble text =>
    match assembleWith k.asm text with
    | .ok p => (st, .program p)
    | .error e => (st, .asmError e)
  | .load p => performLoad k.encoding p st
  | .assembleAndLoad text =>
    match assembleWith k.asm text with
    | .ok p => performLoad k.encoding p st
    | .error e => (st, .asmError e)
  | .step => ((stepOnce k.encoding st).1, .trace (stepOnce k.encoding st).2)
  | .run fuel =>
    match runFor k.encoding fuel st with
    | some t => (t, .ranToHalt)
    | none => (stepTimes k.encoding fuel st, .notHalted)
  | .snapshot => (st, .registers (snapshot st))
  | .readByte a => (st, .byte (st.memRead a))

end Sys2Proof.Machine
end

