-- ==== Sys2Proof/Safety.lean ====
section
/-! DEFINITION. The terms that claims are stated in: what an instruction leaves unchanged, what each kind
of instruction leaves behind, the invariant of the machine, and the states the host can bring about. -/

namespace Sys2Proof

/-! ## Which instructions do what -/

/-- The instructions that may write memory (R97). -/
def Form.isStore : Form → Bool
  | .staDir | .staExt | .stbDir | .stbExt | .stxDir | .stxExt => true
  | _ => false

/-- The branches (R240). -/
def Form.isBranch : Form → Bool
  | .bra | .beq | .bne => true
  | _ => false

/-- The instructions that write C (R42). -/
def Form.writesCarry : Form → Bool
  | .addaImm | .addaDir | .addaExt | .addbImm | .addbDir | .addbExt => true
  | .subaImm | .subaDir | .subaExt | .subbImm | .subbDir | .subbExt => true
  | _ => false

/-- The instructions that write N and Z (R39, R40): loads and arithmetic. -/
def Form.writesNZ : Form → Bool
  | .endSentinel | .nop | .bra | .beq | .bne => false
  | .staDir | .staExt | .stbDir | .stbExt | .stxDir | .stxExt => false
  | _ => true

end Sys2Proof

namespace Sys2Proof.Machine

/-! ## Frames -/

/-- The registers other than PC and CC (R30). -/
inductive Reg where
  | a | b | dp | x | y | s | u
deriving DecidableEq, Repr

/-- A register's value, an 8-bit one zero-extended. -/
def State.reg (st : State) : Reg → Word
  | .a => zext16 st.a
  | .b => zext16 st.b
  | .dp => zext16 st.dp
  | .x => st.x
  | .y => st.y
  | .s => st.s
  | .u => st.u

/-- An accumulator as a register. -/
def Acc.reg : Acc → Reg
  | .a => .a
  | .b => .b

/-- Every register but those listed is unchanged. -/
def RegsKeptBut (but : List Reg) (s t : State) : Prop := ∀ r, r ∉ but → t.reg r = s.reg r

/-- Every flag but those listed is unchanged (R45). -/
def FlagsKeptBut (but : List Flag) (s t : State) : Prop := ∀ g, g ∉ but → t.flag g = s.flag g

/-- Every byte of memory reads as before. -/
def MemKept (s t : State) : Prop := ∀ a, t.memRead a = s.memRead a

/-- Every byte of memory outside the listed addresses reads as before. -/
def MemKeptBut (but : List Word) (s t : State) : Prop := ∀ a, a ∉ but → t.memRead a = s.memRead a

/-! ## What a store puts where -/

/-- The byte that a store instruction writes at the address `p`, if it writes one there: A or B at its
effective address; of X the high byte there and the low byte at the next address (R172 to R177, R80).
An instruction that is no store writes none. -/
def storedAt (i : Instr) (s : State) (p : Word) : Option Byte :=
  match i with
  | .staDir addr8 => one (eaDirect addr8) s.a
  | .staExt addr16 => one (eaExtended addr16) s.a
  | .stbDir addr8 => one (eaDirect addr8) s.b
  | .stbExt addr16 => one (eaExtended addr16) s.b
  | .stxDir addr8 => two (eaDirect addr8)
  | .stxExt addr16 => two (eaExtended addr16)
  | _ => none
where
  one (ea : Word) (v : Byte) : Option Byte := if p = ea then some v else none
  two (ea : Word) : Option Byte :=
    if p = ea then some (s.x.extractLsb' 8 8)
    else if p = ea + 1 then some (s.x.extractLsb' 0 8)
    else none

/-- The byte that a read of `p` gives after the instruction: what it stored there if that lies in RAM,
and otherwise the byte before (R77, R90). -/
def byteAfter (i : Instr) (s : State) (p : Word) : Byte :=
  if p.toNat < 0x8000 then (storedAt i s p).getD (s.memRead p) else s.memRead p

/-! ## What each kind of instruction leaves, from `s` to `t`; `size` is its length in bytes -/

/-- The byte `m` is loaded into an accumulator (R178). -/
structure LoadsAcc (r : Acc) (m : Byte) (size : Nat) (s t : State) : Prop where
  value : t.acc r = m
  n : t.flag .n = m.getLsbD 7
  z : t.flag .z = decide (m = 0)
  flags : FlagsKeptBut [.n, .z] s t
  regs : RegsKeptBut [r.reg] s t
  pc : t.pc = s.pc + BitVec.ofNat 16 size
  memory : MemKept s t
  halted : t.halted = s.halted

/-- The word `v` is loaded into X (R178). -/
structure LoadsX (v : Word) (size : Nat) (s t : State) : Prop where
  value : t.x = v
  n : t.flag .n = v.getLsbD 15
  z : t.flag .z = decide (v = 0)
  flags : FlagsKeptBut [.n, .z] s t
  regs : RegsKeptBut [.x] s t
  pc : t.pc = s.pc + BitVec.ofNat 16 size
  memory : MemKept s t
  halted : t.halted = s.halted

/-- The byte `v` is stored at `ea`; in ROM it is discarded (R179, R77). -/
structure Stores8 (ea : Word) (v : Byte) (size : Nat) (s t : State) : Prop where
  stored : t.memRead ea = if ea.toNat < 0x8000 then v else s.memRead ea
  memory : MemKeptBut [ea] s t
  flags : FlagsKeptBut [] s t
  regs : RegsKeptBut [] s t
  pc : t.pc = s.pc + BitVec.ofNat 16 size
  halted : t.halted = s.halted

/-- The word `v` is stored at `ea` and `ea + 1`, high byte first, each byte discarded in ROM (R179, R80). -/
structure Stores16 (ea v : Word) (size : Nat) (s t : State) : Prop where
  high : t.memRead ea = if ea.toNat < 0x8000 then v.extractLsb' 8 8 else s.memRead ea
  low : t.memRead (ea + 1) = if (ea + 1).toNat < 0x8000 then v.extractLsb' 0 8 else s.memRead (ea + 1)
  memory : MemKeptBut [ea, ea + 1] s t
  flags : FlagsKeptBut [] s t
  regs : RegsKeptBut [] s t
  pc : t.pc = s.pc + BitVec.ofNat 16 size
  halted : t.halted = s.halted

/-- The byte `res` is the new value of an accumulator, N and Z come from it, and C is `carry` (R200,
R201). -/
structure WritesAccNZC (r : Acc) (res : Byte) (carry : Bool) (size : Nat) (s t : State) : Prop where
  value : t.acc r = res
  n : t.flag .n = res.getLsbD 7
  z : t.flag .z = decide (res = 0)
  c : t.flag .c = carry
  flags : FlagsKeptBut [.n, .z, .c] s t
  regs : RegsKeptBut [r.reg] s t
  pc : t.pc = s.pc + BitVec.ofNat 16 size
  memory : MemKept s t
  halted : t.halted = s.halted

/-- `m` is added to an accumulator: C iff the sum exceeds 0xFF (R200). -/
def AddsTo (r : Acc) (m : Byte) (size : Nat) (s t : State) : Prop :=
  WritesAccNZC r (s.acc r + m) (decide (0xFF < (s.acc r).toNat + m.toNat)) size s t

/-- `m` is subtracted from an accumulator: C iff it was the smaller (R201). -/
def SubtractsFrom (r : Acc) (m : Byte) (size : Nat) (s t : State) : Prop :=
  WritesAccNZC r (s.acc r - m) (decide ((s.acc r).toNat < m.toNat)) size s t

/-- Nothing changes but PC (R240, R261). -/
structure OnlyPcMoves (target : Word) (s t : State) : Prop where
  pc : t.pc = target
  flags : FlagsKeptBut [] s t
  regs : RegsKeptBut [] s t
  memory : MemKept s t
  halted : t.halted = s.halted

/-- PC moves one byte on, the engine is HALTED, and nothing else changes (R262, R263). -/
structure HaltsPastOneByte (s t : State) : Prop where
  halted : t.halted = true
  pc : t.pc = s.pc + 1
  flags : FlagsKeptBut [] s t
  regs : RegsKeptBut [] s t
  memory : MemKept s t

/-! ## The invariant -/

/-- What every state the machine reaches satisfies: memory canonical, ROM as `MemReset` left it (R74), DP,
Y, S and U at zero (R33, R47, R48), E, F, H and V clear and I set (R35 to R38, R41). -/
structure State.Inv (st : State) : Prop where
  memory : st.mem.wf = true
  rom : st.mem.romIntact = true
  dp : st.dp = 0
  y : st.y = 0
  s : st.s = 0
  u : st.u = 0
  e : st.flag .e = false
  f : st.flag .f = false
  h : st.flag .h = false
  i : st.flag .i = true
  v : st.flag .v = false

/-- The states the host can bring about, on a block of configuration `k`, from power-on by the operations
of R9. -/
inductive Reachable (k : Params) : State → Prop
  | powerOn : Reachable k State.reset
  | perform {st : State} (op : HostOp) : Reachable k st → Reachable k (hostPerform k op st).1

/-! ## Runs and influence -/

/-- `Run` from `st` under the map `c` returns, in state `t` (R264). -/
def RunsTo (c : EncodingParams) (st t : State) : Prop := ∃ n, runFor c n st = some t

/-- Equal in all that instructions read or write: everything but DP, Y, S, U and the flags E, F, H, I,
V. -/
structure SameButInert (s t : State) : Prop where
  a : s.a = t.a
  b : s.b = t.b
  x : s.x = t.x
  pc : s.pc = t.pc
  halted : s.halted = t.halted
  mem : s.mem = t.mem
  n : s.flag .n = t.flag .n
  z : s.flag .z = t.flag .z
  c : s.flag .c = t.flag .c

end Sys2Proof.Machine
end

