-- ==== Sys2Proof/Certificates/Slice0/Obligations.lean ====
section
/-! DEFINITION. The statements for the provers. Each docstring names the rules of spec/ it formalises, and
where a clause is a decision of the spec (D<n>) or of the model, the log entry that records it. `c` is
any opcode map, `k` any configuration (R12): `step` is `stepWith defaultEncoding`
(`EveryOpcodeMapDrivesTheEngine`). -/

open Sys2Proof Sys2Proof.Machine

/-! ## Flags and the ALU -/

/-- R34: the eight flags of CC and their masks, most significant bit first. -/
def Obligations.CcHoldsEightFlagsAtTheirMasks : Prop :=
  ∀ st : State,
    st.flag .e = decide (st.cc &&& 0x80 ≠ 0) ∧ st.flag .f = decide (st.cc &&& 0x40 ≠ 0) ∧
    st.flag .h = decide (st.cc &&& 0x20 ≠ 0) ∧ st.flag .i = decide (st.cc &&& 0x10 ≠ 0) ∧
    st.flag .n = decide (st.cc &&& 0x08 ≠ 0) ∧ st.flag .z = decide (st.cc &&& 0x04 ≠ 0) ∧
    st.flag .v = decide (st.cc &&& 0x02 ≠ 0) ∧ st.flag .c = decide (st.cc &&& 0x01 ≠ 0)

/-- R43, R44: `UpdateNZ8` assigns Z and N from the 8-bit value, `UpdateNZ16` from all 16 bits, and neither
changes another bit. -/
def Obligations.UpdateNZAssignsOnlyZeroAndNegative : Prop :=
  (∀ v cc : Byte,
    flagOf .z (updateNZ8 v cc) = decide (v = 0) ∧
    flagOf .n (updateNZ8 v cc) = v.getLsbD 7 ∧
    ∀ g, g ≠ .z → g ≠ .n → flagOf g (updateNZ8 v cc) = flagOf g cc) ∧
  ∀ (v : Word) (cc : Byte),
    flagOf .z (updateNZ16 v cc) = decide (v = 0) ∧
    flagOf .n (updateNZ16 v cc) = v.getLsbD 15 ∧
    ∀ g, g ≠ .z → g ≠ .n → flagOf g (updateNZ16 v cc) = flagOf g cc

/-- R200: the truncated sum; N and Z from it; C iff the untruncated sum exceeds 0xFF; nothing else, and
no carry in. -/
def Obligations.Add8GivesTruncatedSumAndCarryOut : Prop :=
  ∀ cc r m : Byte,
    (add8 cc r m).value.toNat = (r.toNat + m.toNat) % 256 ∧
    flagOf .n (add8 cc r m).cc = (add8 cc r m).value.getLsbD 7 ∧
    flagOf .z (add8 cc r m).cc = decide ((add8 cc r m).value = 0) ∧
    flagOf .c (add8 cc r m).cc = decide (r.toNat + m.toNat > 0xFF) ∧
    (∀ g, g ≠ .n → g ≠ .z → g ≠ .c → flagOf g (add8 cc r m).cc = flagOf g cc) ∧
    ∀ cc', (add8 cc' r m).value = (add8 cc r m).value

/-- R201: the difference modulo 256; N and Z from it; C iff the raw difference is negative; nothing
else, and no borrow in. -/
def Obligations.Sub8GivesTruncatedDifferenceAndBorrow : Prop :=
  ∀ cc r m : Byte,
    ((sub8 cc r m).value.toNat : Int) = ((r.toNat : Int) - m.toNat) % 256 ∧
    flagOf .n (sub8 cc r m).cc = (sub8 cc r m).value.getLsbD 7 ∧
    flagOf .z (sub8 cc r m).cc = decide ((sub8 cc r m).value = 0) ∧
    flagOf .c (sub8 cc r m).cc = decide ((r.toNat : Int) - m.toNat < 0) ∧
    (∀ g, g ≠ .n → g ≠ .z → g ≠ .c → flagOf g (sub8 cc r m).cc = flagOf g cc) ∧
    ∀ cc', (sub8 cc' r m).value = (sub8 cc r m).value

/-- R202, R203: increment and decrement wrap modulo 256, assign N and Z, and leave C and V. -/
def Obligations.IncrementAndDecrementWrapAndKeepCarry : Prop :=
  ∀ cc r : Byte,
    (inc8 cc r).value.toNat = (r.toNat + 1) % 256 ∧
    ((dec8 cc r).value.toNat : Int) = ((r.toNat : Int) - 1) % 256 ∧
    flagOf .n (inc8 cc r).cc = (inc8 cc r).value.getLsbD 7 ∧
    flagOf .z (inc8 cc r).cc = decide ((inc8 cc r).value = 0) ∧
    flagOf .n (dec8 cc r).cc = (dec8 cc r).value.getLsbD 7 ∧
    flagOf .z (dec8 cc r).cc = decide ((dec8 cc r).value = 0) ∧
    ∀ g, g ≠ .n → g ≠ .z →
      flagOf g (inc8 cc r).cc = flagOf g cc ∧ flagOf g (dec8 cc r).cc = flagOf g cc

/-- The algebraic checks of 95_test_vectors.md section 7, from R200 to R203. -/
def Obligations.AluAlgebraicLaws : Prop :=
  ∀ cc r m : Byte,
    (sub8 cc r r).value = 0 ∧ flagOf .z (sub8 cc r r).cc = true ∧ flagOf .c (sub8 cc r r).cc = false ∧
    (inc8 cc (dec8 cc r).value).value = r ∧ (dec8 cc (inc8 cc r).value).value = r ∧
    (sub8 cc (add8 cc r m).value m).value = r ∧
    ((flagOf .z (add8 cc r m).cc = true ∧ flagOf .c (add8 cc r m).cc = true) ↔
      r.toNat + m.toNat = 256)

/-! ## Operand forms -/

/-- R113 to R116: an immediate is unsigned (zero-extended for LDX, decision D8, log 4), a DIRECT address
is the zero-extended byte, an EXTENDED address the word, and an offset is signed and added modulo
2^16. -/
def Obligations.OperandFormsExtendAsTheEncodingSays : Prop :=
  (∀ m : Byte, immediate8 m = m ∧ (immediate16 m).toNat = m.toNat) ∧
  (∀ a : Byte, (eaDirect a).toNat = a.toNat) ∧
  (∀ a : Word, eaExtended a = a) ∧
  (∀ hi lo : Byte, (joinBytes hi lo).toNat = hi.toNat * 256 + lo.toNat) ∧
  ∀ (pc : Word) (off : Byte), ((branchTarget pc off).toNat : Int) = (pc.toNat + off.toInt) % 65536

/-- R50, R51, R52: a byte fetch reads at PC and moves PC by one, a word fetch takes its high byte first
and moves PC by two; PC wraps at 0xFFFF (decision D10, log 6); nothing else changes. -/
def Obligations.FetchReadsAtPcAndAdvancesIt : Prop :=
  ∀ s : State,
    (fetchByte s).1 = s.memRead s.pc ∧
    OnlyPcMoves (s.pc + 1) s (fetchByte s).2 ∧
    ((s.pc = 0xFFFF) → (fetchByte s).2.pc = 0) ∧
    (fetchWord s).1 = joinBytes (s.memRead s.pc) (s.memRead (s.pc + 1)) ∧
    OnlyPcMoves (s.pc + 2) s (fetchWord s).2

/-! ## Memory -/

/-- R76, R77, R88: a read gives the last byte written at that address in RAM; a write elsewhere, or in
ROM, does not show. Premise: the memory is canonical, which every step keeps (`StepKeepsTheInvariant`). -/
def Obligations.ReadAfterWrite : Prop :=
  ∀ (s : State) (a a' : Word) (v : Byte), s.mem.wf = true →
    (s.memWrite a v).memRead a' =
      if a' = a ∧ a.toNat < 0x8000 then v else s.memRead a'

/-- R80: a 16-bit write puts its high byte at the address and its low byte at the next, each decoded on
its own, the second address masked to 16 bits. -/
def Obligations.SixteenBitWriteIsTwoByteWritesHighFirst : Prop :=
  ∀ (s : State) (a v a' : Word), s.mem.wf = true →
    (s.memWrite16 a v).memRead a' =
      if a' = a ∧ a.toNat < 0x8000 then v.extractLsb' 8 8
      else if a' = a + 1 ∧ (a + 1).toNat < 0x8000 then v.extractLsb' 0 8
      else s.memRead a'

/-- The model's canonical form (log 17): two memories in it that read alike at every address are equal
data. -/
def Obligations.CanonicalMemoriesThatReadAlikeAreEqual : Prop :=
  ∀ m m' : Memory, m.wf = true → m'.wf = true → (∀ a : Word, m.read a = m'.read a) → m = m'

/-- R74: no step changes what an address at or above 0x8000 reads, and in every state the host can bring
about ROM reads 0xFF from 0x8000 to 0xFFFD and 0x00 at 0xFFFE and 0xFFFF. -/
def Obligations.RomIsImmutable : Prop :=
  (∀ (c : EncodingParams) (s t : State) (a : Word), stepWith c s = .next t → 0x8000 ≤ a.toNat →
    t.memRead a = s.memRead a) ∧
  (∀ (s : State) (a : Word) (v : Byte), 0x8000 ≤ a.toNat → s.memWrite a v = s) ∧
  ∀ (k : Params) (s : State) (a : Word), Reachable k s → 0x8000 ≤ a.toNat →
    s.memRead a = if a.toNat < 0xFFFE then 0xFF else 0x00

/-- R97: of the instructions only the six stores write memory; a step that runs none of them leaves every
byte. -/
def Obligations.OnlyStoresChangeMemory : Prop :=
  ∀ (c : EncodingParams) (s t : State), stepWith c s = .next t →
    (∀ i, decodeWith c (s.memRead s.pc) (s.memRead (s.pc + 1)) (s.memRead (s.pc + 2)) = .ok i →
      i.form.isStore = false) →
    MemKept s t

/-- R90 (decision D26, log 22), for all six stores, both bytes of STX, and opcode and operand positions
alike: after a store every read, of data or of an instruction, gives the stored byte wherever it
landed in RAM, and the next step of a running engine decodes those bytes and no older ones. -/
def Obligations.StoreIsSeenByTheNextFetch : Prop :=
  ∀ (c : EncodingParams) (i : Instr) (s t : State), s.mem.wf = true → s.halted = false →
    i.form.isStore = true → exec i s = .next t →
    (∀ p, t.memRead p = byteAfter i s p) ∧
    (∀ j, decodeWith c (byteAfter i s t.pc) (byteAfter i s (t.pc + 1)) (byteAfter i s (t.pc + 2)) = .ok j →
      stepWith c t = exec j t) ∧
    ((∀ f, c.opc f ≠ byteAfter i s t.pc) → ∃ u, stepWith c t = .next u ∧ HaltsPastOneByte t u)

/-! ## Encoding -/

/-- Words written out from spec/opcode_table.json (the default opcode bytes are decision D2, log 1): one
or more of each family. -/
def Obligations.DecodeReadsTheTablesWords : Prop :=
  decode 0x86 0x05 0x00 = .ok (.ldaImm 0x05) ∧
  decode 0x9E 0x20 0x00 = .ok (.ldxDir 0x20) ∧
  decode 0xF6 0x12 0x34 = .ok (.ldbExt 0x1234) ∧
  decode 0x97 0x20 0x00 = .ok (.staDir 0x20) ∧
  decode 0xBF 0x02 0x00 = .ok (.stxExt 0x0200) ∧
  decode 0x8B 0x03 0x00 = .ok (.addaImm 0x03) ∧
  decode 0xD0 0x22 0x00 = .ok (.subbDir 0x22) ∧
  decode 0x4C 0x00 0x00 = .ok .inca ∧
  decode 0x26 0xFB 0x00 = .ok (.bne 0xFB) ∧
  decode 0x12 0x00 0x00 = .ok .nop ∧
  decode 0x00 0x00 0x00 = .ok .endSentinel ∧
  decode 0xFF 0x00 0x00 = .error (.invalidOpcode 0xFF)

/-- R117, R119, R121: under EVERY legal opcode map, decoding the bytes of any instruction, with any bytes
after them, gives that instruction and those bytes. -/
def Obligations.DecodeOfEncodeUnderEveryLegalMap : Prop :=
  ∀ (c : EncodingParams) (i : Instr) (rest : List Byte), c.legal = true →
    decodeBytesWith c (encodeWith c i ++ rest) = .ok (i, rest)

/-- R117, R121: the bytes a decode consumes are the encoding of the instruction it gives, under any map. -/
def Obligations.EncodeOfDecodeUnderEveryMap : Prop :=
  ∀ (c : EncodingParams) (bs rest : List Byte) (i : Instr),
    decodeBytesWith c bs = .ok (i, rest) → bs = encodeWith c i ++ rest

/-- The engine's three-byte decoder and the byte-list decoder agree, and every instruction is read by the
engine's decoder from its own bytes, whatever follows (R121). -/
def Obligations.EngineDecodesEveryEncodedInstruction : Prop :=
  ∀ (i : Instr) (op b1 b2 : Byte) (tail : List Byte),
    encode i ++ tail = [op, b1, b2] → decode op b1 b2 = .ok i

/-- R119, R122, R12 (values: decisions D2, D3, log 1, 2): the default map gives 36 forms 36 different bytes,
so that 220 of the 256 bytes are no opcode. -/
def Obligations.DefaultMapIsLegalAndLeaves220BytesInvalid : Prop :=
  defaultEncoding.legal = true ∧ Form.all.length = 36 ∧ (∀ f, f ∈ Form.all) ∧
  ((List.range 256).filter fun n =>
    (formOf defaultEncoding (BitVec.ofNat 8 n)).isNone).length = 220

/-- R121: the opcode byte alone says how many operand bytes matter: none for an invalid opcode or a
one-byte instruction, one for a two-byte instruction. -/
def Obligations.DecodeUsesOnlyTheInstructionsOwnBytes : Prop :=
  ∀ (op b1 b2 b1' b2' : Byte),
    (formOf defaultEncoding op = none → decode op b1 b2 = .error (.invalidOpcode op)) ∧
    ∀ f, formOf defaultEncoding op = some f →
      (f.size = 1 → decode op b1 b2 = decode op b1' b2') ∧
      (f.size = 2 → decode op b1 b2 = decode op b1 b2')

/-- R118, R110: the size of an instruction is a function of its mode, and an encoding has that length and
begins with its opcode, under any map. -/
def Obligations.EncodedLengthIsTheModesSize : Prop :=
  (Mode.size .inherent = 1 ∧ Mode.size .immediate = 2 ∧ Mode.size .direct = 2 ∧
    Mode.size .extended = 3) ∧
  ∀ (c : EncodingParams) (i : Instr),
    (encodeWith c i).length = i.form.mode.size ∧ (encodeWith c i).head? = some (c.opc i.form)

/-- R117, R124: the LUT is total: a defined pair gives its opcode, every other pair OPC_DEFAULT (left
open, log 3). -/
def Obligations.LutGivesOpcodeOrDefault : Prop :=
  ∀ (c : EncodingParams) (name : List Char) (mode : Mode),
    (∀ (f : Form) (m : Mnemonic), f.mnemonic = some m → f.mode = mode → m.name = name →
      opcodeOf c name mode = c.opc f) ∧
    ((∀ (f : Form) (m : Mnemonic), f.mnemonic = some m → f.mode = mode → m.name ≠ name) →
      opcodeOf c name mode = c.opcDefault)

/-! ## The step -/

/-- R260: a RUNNING engine whose bytes at PC decode to an instruction executes it; `exec` starts with PC
at the opcode byte and itself moves it past the instruction. -/
def Obligations.StepRunsTheDecodedInstruction : Prop :=
  ∀ (s : State) (i : Instr), s.halted = false →
    decode (s.memRead s.pc) (s.memRead (s.pc + 1)) (s.memRead (s.pc + 2)) = .ok i →
    step s = exec i s

/-- R267 (and R53, R288): a step in HALTED changes nothing, whatever the memory holds, and so do all
further ones; the trace is the halted indication; and no operation of the host but a reset of the
engine leaves HALTED. -/
def Obligations.HaltedIsTerminalUntilAReset : Prop :=
  ∀ (k : Params) (s : State), s.halted = true →
    stepWith k.encoding s = .next s ∧ stepTrace k.encoding s = .halted ∧
    (∀ n, stepTimes k.encoding n s = s) ∧
    ∀ op : HostOp, op ≠ .powerOn → op ≠ .procReset → (hostPerform k op s).1.halted = true

/-- R286 (decision D24, log 13): an opcode byte outside the map sets HALTED, leaves PC one past it, and changes nothing else. -/
def Obligations.InvalidOpcodeIsAFailStop : Prop :=
  ∀ (c : EncodingParams) (s : State), s.halted = false → (∀ f, c.opc f ≠ s.memRead s.pc) →
    ∃ t, stepWith c s = .next t ∧ HaltsPastOneByte s t

/-- R260, R280: `Step` is total: from any state it ends in a next state; nothing faults and nothing is
refused. -/
def Obligations.StepAlwaysEndsInANextState : Prop :=
  ∀ (c : EncodingParams) (s : State), ∃ t, stepWith c s = .next t

/-- R53: under every legal map, a RUNNING engine is HALTED after a step exactly when the byte at PC is the
END sentinel's opcode or no opcode. -/
def Obligations.EngineHaltsOnlyAtSentinelOrInvalidOpcode : Prop :=
  ∀ (c : EncodingParams) (s t : State), c.legal = true → s.halted = false → stepWith c s = .next t →
    (t.halted = true ↔
      (s.memRead s.pc = c.opc .endSentinel ∨ ∀ f, c.opc f ≠ s.memRead s.pc))

/-- R49, R240: a step moves PC past the instruction, or to a branch's target. -/
def Obligations.PcMovesPastTheInstructionOrToABranchTarget : Prop :=
  ∀ (c : EncodingParams) (s t : State) (i : Instr), s.halted = false →
    decodeWith c (s.memRead s.pc) (s.memRead (s.pc + 1)) (s.memRead (s.pc + 2)) = .ok i →
    stepWith c s = .next t →
    t.pc = s.pc + BitVec.ofNat 16 i.form.mode.size ∨
      ∃ off8, i.operand = .rel off8 ∧ i.form.isBranch = true ∧
        t.pc = s.pc + 2 + off8.signExtend 16

/-- R39, R40, R42, R45: N and Z are written by loads and arithmetic alone, C by adds and subtracts
alone. -/
def Obligations.EachFlagIsWrittenOnlyByItsInstructions : Prop :=
  ∀ (i : Instr) (s t : State), exec i s = .next t →
    (i.form.writesNZ = false → t.flag .n = s.flag .n ∧ t.flag .z = s.flag .z) ∧
    (i.form.writesCarry = false → t.flag .c = s.flag .c)

/-- R33, R35 to R38, R41, R47, R48: a step from ANY state leaves DP, Y, S, U and the flags E, F, H, I, V
as they are. -/
def Obligations.StepNeverWritesTheInertState : Prop :=
  ∀ (c : EncodingParams) (s t : State), stepWith c s = .next t →
    t.dp = s.dp ∧ t.y = s.y ∧ t.s = s.s ∧ t.u = s.u ∧
    t.flag .e = s.flag .e ∧ t.flag .f = s.flag .f ∧ t.flag .h = s.flag .h ∧
    t.flag .i = s.flag .i ∧ t.flag .v = s.flag .v

/-- R33, R35 to R38, R41, R47, R48: no instruction reads DP, Y, S, U or the flags E, F, H, I, V: two states
that differ only there step to two states that differ only there. -/
def Obligations.StepNeverReadsTheInertState : Prop :=
  ∀ (c : EncodingParams) (s t s' t' : State), SameButInert s t → stepWith c s = .next s' →
    stepWith c t = .next t' → SameButInert s' t'

/-! ## The invariant -/

/-- The reset state satisfies the invariant (R55, R86; R312 for power-on, log 7). -/
def Obligations.ResetSatisfiesTheInvariant : Prop := State.reset.Inv

/-- Every step from every state that satisfies the invariant keeps it: memory canonical, ROM intact (R74),
DP, Y, S, U zero, E, F, H, V clear and I set (R33 to R48). -/
def Obligations.StepKeepsTheInvariant : Prop :=
  ∀ s t : State, s.Inv → step s = .next t → t.Inv

/-- Every state the host can bring about from power-on, by any sequence of operations and any loaded
programs, under any configuration, satisfies the invariant: the flags, DP, Y, S, U and ROM read as R33
to R48 and R74 say in every reachable state (log 7, 10). -/
def Obligations.ReachableStatesSatisfyTheInvariant : Prop :=
  ∀ (k : Params) (s : State), Reachable k s → s.Inv

/-- The step lemma for every operation of the host (R9): the two resets, power-on, assembling, loading any
program, a step, a run of any length, a snapshot. From every state that satisfies the invariant,
reachable or not, under every configuration, each leaves a state that satisfies it; and the reset
state does. -/
def Obligations.EveryHostOperationKeepsTheInvariant : Prop :=
  State.reset.Inv ∧ ∀ (k : Params) (op : HostOp) (s : State), s.Inv → (hostPerform k op s).1.Inv

/-! ## Instructions: each answers a next state, which is what its rule gives -/

/-- R163 to R168, R178: LDA and LDB, all three forms. -/
def Obligations.LdaAndLdbLoadTheirAccumulator : Prop :=
  ∀ s : State,
    (∀ imm8, ∃ t, exec (.ldaImm imm8) s = .next t ∧ LoadsAcc .a (immediate8 imm8) 2 s t) ∧
    (∀ addr8, ∃ t, exec (.ldaDir addr8) s = .next t ∧
      LoadsAcc .a (s.memRead (eaDirect addr8)) 2 s t) ∧
    (∀ addr16, ∃ t, exec (.ldaExt addr16) s = .next t ∧
      LoadsAcc .a (s.memRead (eaExtended addr16)) 3 s t) ∧
    (∀ imm8, ∃ t, exec (.ldbImm imm8) s = .next t ∧ LoadsAcc .b (immediate8 imm8) 2 s t) ∧
    (∀ addr8, ∃ t, exec (.ldbDir addr8) s = .next t ∧
      LoadsAcc .b (s.memRead (eaDirect addr8)) 2 s t) ∧
    (∀ addr16, ∃ t, exec (.ldbExt addr16) s = .next t ∧
      LoadsAcc .b (s.memRead (eaExtended addr16)) 3 s t)

/-- R169 to R171, R178: LDX, all three forms; the immediate is one zero-extended byte (decision D8, log 4)
and a memory operand is big-endian (decision D9, log 5). -/
def Obligations.LdxLoadsX : Prop :=
  ∀ s : State,
    (∀ imm8, ∃ t, exec (.ldxImm imm8) s = .next t ∧ LoadsX (immediate16 imm8) 2 s t) ∧
    (∀ addr8, ∃ t, exec (.ldxDir addr8) s = .next t ∧
      LoadsX (s.memRead (eaDirect addr8) ++ s.memRead (eaDirect addr8 + 1)) 2 s t) ∧
    ∀ addr16, ∃ t, exec (.ldxExt addr16) s = .next t ∧
      LoadsX (s.memRead (eaExtended addr16) ++ s.memRead (eaExtended addr16 + 1)) 3 s t

/-- R172 to R175, R179: STA and STB, both forms, in a canonical memory; a store to ROM is discarded and
completes (R77). -/
def Obligations.StaAndStbStoreTheirAccumulator : Prop :=
  ∀ s : State, s.mem.wf = true →
    (∀ addr8, ∃ t, exec (.staDir addr8) s = .next t ∧ Stores8 (eaDirect addr8) s.a 2 s t) ∧
    (∀ addr16, ∃ t, exec (.staExt addr16) s = .next t ∧ Stores8 (eaExtended addr16) s.a 3 s t) ∧
    (∀ addr8, ∃ t, exec (.stbDir addr8) s = .next t ∧ Stores8 (eaDirect addr8) s.b 2 s t) ∧
    ∀ addr16, ∃ t, exec (.stbExt addr16) s = .next t ∧ Stores8 (eaExtended addr16) s.b 3 s t

/-- R176, R177, R179, R80: STX, both forms, in a canonical memory: high byte first, each byte decoded on
its own. -/
def Obligations.StxStoresX : Prop :=
  ∀ s : State, s.mem.wf = true →
    (∀ addr8, ∃ t, exec (.stxDir addr8) s = .next t ∧ Stores16 (eaDirect addr8) s.x 2 s t) ∧
    ∀ addr16, ∃ t, exec (.stxExt addr16) s = .next t ∧ Stores16 (eaExtended addr16) s.x 3 s t

/-- R204 to R209, R200: ADDA and ADDB, all three forms. -/
def Obligations.AddaAndAddbAddToTheirAccumulator : Prop :=
  ∀ s : State,
    (∀ imm8, ∃ t, exec (.addaImm imm8) s = .next t ∧ AddsTo .a (immediate8 imm8) 2 s t) ∧
    (∀ addr8, ∃ t, exec (.addaDir addr8) s = .next t ∧
      AddsTo .a (s.memRead (eaDirect addr8)) 2 s t) ∧
    (∀ addr16, ∃ t, exec (.addaExt addr16) s = .next t ∧
      AddsTo .a (s.memRead (eaExtended addr16)) 3 s t) ∧
    (∀ imm8, ∃ t, exec (.addbImm imm8) s = .next t ∧ AddsTo .b (immediate8 imm8) 2 s t) ∧
    (∀ addr8, ∃ t, exec (.addbDir addr8) s = .next t ∧
      AddsTo .b (s.memRead (eaDirect addr8)) 2 s t) ∧
    (∀ addr16, ∃ t, exec (.addbExt addr16) s = .next t ∧
      AddsTo .b (s.memRead (eaExtended addr16)) 3 s t)

/-- R210 to R215, R201: SUBA and SUBB, all three forms. -/
def Obligations.SubaAndSubbSubtractFromTheirAccumulator : Prop :=
  ∀ s : State,
    (∀ imm8, ∃ t, exec (.subaImm imm8) s = .next t ∧ SubtractsFrom .a (immediate8 imm8) 2 s t) ∧
    (∀ addr8, ∃ t, exec (.subaDir addr8) s = .next t ∧
      SubtractsFrom .a (s.memRead (eaDirect addr8)) 2 s t) ∧
    (∀ addr16, ∃ t, exec (.subaExt addr16) s = .next t ∧
      SubtractsFrom .a (s.memRead (eaExtended addr16)) 3 s t) ∧
    (∀ imm8, ∃ t, exec (.subbImm imm8) s = .next t ∧ SubtractsFrom .b (immediate8 imm8) 2 s t) ∧
    (∀ addr8, ∃ t, exec (.subbDir addr8) s = .next t ∧
      SubtractsFrom .b (s.memRead (eaDirect addr8)) 2 s t) ∧
    (∀ addr16, ∃ t, exec (.subbExt addr16) s = .next t ∧
      SubtractsFrom .b (s.memRead (eaExtended addr16)) 3 s t)

/-- R216 to R219, R202, R203: INCA, INCB, DECA, DECB; N and Z from the wrapped result, C kept. -/
def Obligations.IncrementsAndDecrementsStepAnAccumulator : Prop :=
  ∀ s : State,
    (∃ t, exec .inca s = .next t ∧ LoadsAcc .a (s.a + 1) 1 s t) ∧
    (∃ t, exec .incb s = .next t ∧ LoadsAcc .b (s.b + 1) 1 s t) ∧
    (∃ t, exec .deca s = .next t ∧ LoadsAcc .a (s.a - 1) 1 s t) ∧
    ∃ t, exec .decb s = .next t ∧ LoadsAcc .b (s.b - 1) 1 s t

/-- R240, R241: BRA goes to its target, always. -/
def Obligations.BraAlwaysBranches : Prop :=
  ∀ (s : State) (off8 : Byte), ∃ t, exec (.bra off8) s = .next t ∧
    OnlyPcMoves (s.pc + 2 + off8.signExtend 16) s t

/-- R240, R242, R243: BEQ goes to its target when Z = 1, BNE when Z = 0, and otherwise each goes past its
offset byte (polarity: decision D17, log 11). -/
def Obligations.BeqAndBneBranchOnZero : Prop :=
  ∀ (s : State) (off8 : Byte),
    (∃ t, exec (.beq off8) s = .next t ∧
      OnlyPcMoves (if s.flag .z = true then s.pc + 2 + off8.signExtend 16 else s.pc + 2) s t) ∧
    ∃ t, exec (.bne off8) s = .next t ∧
      OnlyPcMoves (if s.flag .z = false then s.pc + 2 + off8.signExtend 16 else s.pc + 2) s t

/-- R261, R262: NOP only moves PC by one; the END sentinel moves PC by one and sets HALTED (decision D24,
log 13). -/
def Obligations.NopAndEndSentinelMovePcByOne : Prop :=
  ∀ s : State,
    (∃ t, exec .nop s = .next t ∧ OnlyPcMoves (s.pc + 1) s t) ∧
    ∃ t, exec .endSentinel s = .next t ∧ HaltsPastOneByte s t

/-! ## Resets, the loader, runs, the snapshot and the trace -/

/-- R310: `ProcReset` in any state: the register defaults, PC from the reset vector (0x0000 while ROM is
intact, which it is in every reachable state: `ReachableStatesSatisfyTheInvariant`), RUNNING, and
memory untouched; and only it, alone or within `PowerOn`, leads out of HALTED. -/
def Obligations.ProcResetGivesTheDefaultsAndKeepsMemory : Prop :=
  ∀ s : State,
    (procReset s).a = 0x00 ∧ (procReset s).b = 0x00 ∧ (procReset s).dp = 0x00 ∧
    (procReset s).x = 0x0000 ∧ (procReset s).y = 0x0000 ∧ (procReset s).s = 0x0000 ∧
    (procReset s).u = 0x0000 ∧ (procReset s).cc = 0x10 ∧
    (procReset s).pc = s.memRead 0xFFFE ++ s.memRead 0xFFFF ∧
    (s.mem.romIntact = true → (procReset s).pc = 0x0000) ∧
    (procReset s).halted = false ∧ (procReset s).mem = s.mem ∧
    ∀ (k : Params) (op : HostOp), s.halted = true → (hostPerform k op s).1.halted = false →
      op = .powerOn ∨ op = .procReset

/-- R86: `MemReset` makes RAM 0x00, ROM 0xFF but for the reset vector 0x0000, and touches no register and
not the halted flag; and no operation of the host but it, alone or within `PowerOn`, changes what ROM
reads. -/
def Obligations.MemResetRestoresEveryByteAndNoRegister : Prop :=
  ∀ s : State,
    (∀ a : Word, (memReset s).memRead a =
      if a.toNat < 0x8000 then 0x00 else if a.toNat < 0xFFFE then 0xFF else 0x00) ∧
    FlagsKeptBut [] s (memReset s) ∧ RegsKeptBut [] s (memReset s) ∧
    (memReset s).pc = s.pc ∧ (memReset s).halted = s.halted ∧
    ∀ (k : Params) (op : HostOp) (a : Word), op ≠ .memReset → op ≠ .powerOn → 0x8000 ≤ a.toNat →
      (hostPerform k op s).1.memRead a = s.memRead a

/-- R312, R313 (decisions D11, D3; log 7, 2): `PowerOn` brings any state to the reset state, and the first
step from there, with nothing loaded, halts with PC = 0x0001. -/
def Obligations.PowerOnGivesTheResetState : Prop :=
  (∀ s : State, powerOn s = State.reset) ∧
  ∃ t, step State.reset = .next t ∧ HaltsPastOneByte State.reset t

/-- R93, R94: `Load` writes, from 0x0000 on, each record's opcode byte and then its operand bytes: none,
the low byte, or high then low. Premise: the memory is canonical. -/
def Obligations.LoadWritesEachRecordsBytesInOrder : Prop :=
  (∀ (c : EncodingParams) (r : Record), recordBytesWith c r =
    match r.mode with
    | .inherent => [r.opcode c]
    | .immediate => [r.opcode c, BitVec.ofNat 8 r.operand]
    | .direct => [r.opcode c, BitVec.ofNat 8 r.operand]
    | .extended => [r.opcode c, BitVec.ofNat 8 (r.operand / 256), BitVec.ofNat 8 r.operand]) ∧
  ∀ (c : EncodingParams) (p : Program) (s t : State), s.mem.wf = true → loadProgramWith c p s = .ok t →
    ∀ n v, (p.flatMap (recordBytesWith c))[n]? = some v → t.memRead (BitVec.ofNat 16 n) = v

/-- R95, R96 (decisions D13, D14; log 8, 9): `Load` changes no register, no byte past the program and
neither RUNNING nor HALTED, and refuses a program of more than 0x8000 bytes. -/
def Obligations.LoadTouchesOnlyTheProgramsBytes : Prop :=
  ∀ (c : EncodingParams) (p : Program) (s : State),
    (Program.size p ≤ 0x8000 → ∃ t, loadProgramWith c p s = .ok t ∧ t = { s with mem := t.mem } ∧
      ∀ a : Word, Program.size p ≤ a.toNat → t.memRead a = s.memRead a) ∧
    (0x8000 < Program.size p → loadProgramWith c p s = .error .tooLong)

/-- R117, R121, R93: encoder and engine agree on a loaded program under every legal map: wherever a RUNNING engine stands at the
start of a recognised record, and memory is as the loader left it, the next step executes that record's
instruction. -/
def Obligations.LoadedProgramRunsRecordByRecord : Prop :=
  ∀ (c : EncodingParams) (before after : Program) (r : Record) (i : Instr) (s t u : State),
    c.legal = true → s.mem.wf = true →
    loadProgramWith c (before ++ r :: after) s = .ok t → recordInstr r = some i →
    u.mem = t.mem → u.halted = false → u.pc = BitVec.ofNat 16 (Program.size before) →
    stepWith c u = exec i u

/-- R94, R117: under every configuration a recognised record loads exactly the encoding of its
instruction. -/
def Obligations.RecordBytesAreTheInstructionsEncoding : Prop :=
  ∀ (c : EncodingParams) (r : Record) (i : Instr), recordInstr r = some i →
    recordBytesWith c r = encodeWith c i

/-- R264 (fuel: decision D27, log 19): `Run` ends only in HALTED, its end state does not depend on the fuel,
and it is the state after that many steps; and it does end: whenever the engine is HALTED after some
number of steps, `Run` with that much fuel returns that state. -/
def Obligations.RunEndsOnlyHaltedAndIndependentOfFuel : Prop :=
  ∀ (c : EncodingParams) (n : Nat) (s : State),
    (∀ t, runFor c n s = some t →
      t.halted = true ∧ stepTimes c n s = t ∧ ∀ m, n ≤ m → runFor c m s = some t) ∧
    ((stepTimes c n s).halted = true → runFor c n s = some (stepTimes c n s))

/-- R58, R32, R84: a snapshot shows every register, with D = A:B (decision D28, log 22), and neither it nor
reading a byte changes the state. -/
def Obligations.SnapshotShowsAllAndChangesNothing : Prop :=
  ∀ (k : Params) (s : State) (a : Word),
    hostPerform k .snapshot s = (s, .registers (snapshot s)) ∧
    hostPerform k (.readByte a) s = (s, .byte (s.memRead a)) ∧
    (snapshot s).a = s.a ∧ (snapshot s).b = s.b ∧
    (snapshot s).d.toNat = s.a.toNat * 256 + s.b.toNat ∧
    (snapshot s).dp = s.dp ∧ (snapshot s).cc = s.cc ∧ (snapshot s).x = s.x ∧ (snapshot s).y = s.y ∧
    (snapshot s).s = s.s ∧ (snapshot s).u = s.u ∧ (snapshot s).pc = s.pc ∧
    (snapshot s).halted = s.halted

/-- R265, R281: a branch's trace says truly where the step goes, an invalid opcode is named in its trace,
and the END sentinel has a trace of its own (shape: decision D16, log 14). -/
def Obligations.TraceAgreesWithTheStep : Prop :=
  (∀ (c : EncodingParams) (s t : State) (m : Mnemonic) (off8 : Byte) (target : Word) (taken : Bool),
    stepTrace c s = .branch m off8 target taken → stepWith c s = .next t →
      target = s.pc + 2 + off8.signExtend 16 ∧ t.pc = if taken then target else s.pc + 2) ∧
  (∀ (c : EncodingParams) (s : State), s.halted = false → (∀ f, c.opc f ≠ s.memRead s.pc) →
    stepTrace c s = .invalid (s.memRead s.pc)) ∧
  ∀ (c : EncodingParams) (s : State), c.legal = true → s.halted = false →
    s.memRead s.pc = c.opc .endSentinel → stepTrace c s = .endOfProgram

/-! ## Every configuration -/

/-- R12, R119, R122, R260 (decisions D2, D3; log 1, 2): the engine takes its opcode map. Under every legal
map the byte that the map gives a form makes the step execute that form's instruction, with the bytes
after it as its operand; under every map a byte it gives no form is the fail-stop; and the machine's
`step` is the engine under the default configuration, which is legal. -/
def Obligations.EveryOpcodeMapDrivesTheEngine : Prop :=
  (∀ (c : EncodingParams) (s : State),
    (c.legal = true → s.halted = false → ∀ f, c.opc f = s.memRead s.pc →
      stepWith c s = exec (f.build (s.memRead (s.pc + 1)) (s.memRead (s.pc + 2))) s) ∧
    (s.halted = false → (∀ f, c.opc f ≠ s.memRead s.pc) →
      ∃ t, stepWith c s = .next t ∧ HaltsPastOneByte s t) ∧
    (s.halted = true → stepWith c s = .next s)) ∧
  (∀ s, step s = stepWith defaultParams.encoding s) ∧ defaultParams.legal = true

/-! ## The assembler -/

/-- R135: without an `END` line an assembly never succeeds and nothing is loaded: it is the missing-END
error if every line parses, and a syntax error otherwise; the empty text is missing END. -/
def Obligations.MissingEndAlwaysFails : Prop :=
  ∀ k : Params,
    (∀ text : List Char, (∀ l ∈ splitLines text, parseLine k.asm l ≠ .endOfSource) →
      ((∀ l ∈ splitLines text, parseLine k.asm l ≠ .malformed) →
        assembleWith k.asm text = .error .missingEnd) ∧
      ((∃ l ∈ splitLines text, parseLine k.asm l = .malformed) →
        ∃ n l, assembleWith k.asm text = .error (.syntaxError n l)) ∧
      ∀ s : State, (hostPerform k (.assembleAndLoad text) s).1 = s) ∧
    assembleWith k.asm [] = .error .missingEnd

/-- R128 (decision D6, log 21): the lines after an `END` line cannot change the result. -/
def Obligations.LinesAfterEndAreNotRead : Prop :=
  ∀ (p : AsmParams) (lines rest : List (List Char)) (endLine : List Char) (n : Nat),
    parseLine p endLine = .endOfSource →
    assembleLines p n (lines ++ endLine :: rest) = assembleLines p n (lines ++ [endLine])

/-- R134: a syntax error names the first line that does not parse, by its 1-based number (which text of
the line is reported: log 16). -/
def Obligations.SyntaxErrorNamesTheFirstBadLine : Prop :=
  ∀ (p : AsmParams) (text line : List Char) (n : Nat), assembleWith p text = .error (.syntaxError n line) →
    1 ≤ n ∧ (splitLines text)[n - 1]? = some line ∧ parseLine p line = .malformed ∧
    ∀ j l, j < n - 1 → (splitLines text)[j]? = some l →
      parseLine p l ≠ .malformed ∧ parseLine p l ≠ .endOfSource

/-- R126, R130 to R133: every record of a successful assembly is well formed, its mode follows its
operand's magnitude, and an operand-less record is one of the closed set (decision D22, log 15). -/
def Obligations.AssembledRecordsFollowTheModeRule : Prop :=
  ∀ (a : AsmParams) (text : List Char) (p : Program), assembleWith a text = .ok p → ∀ r ∈ p,
    r.wellFormed = true ∧
    (r.mode = .direct → r.operand ≤ 0xFF) ∧
    (r.mode = .extended → 0x100 ≤ r.operand) ∧
    (r.mode = .inherent → ∃ m ∈ inherentSet, r.mnemonic = m.name)
end

