-- ==== Sys2Proof/Laws/Decode.lean ====
section
/-! SUPPORT. The pieces of an encoding: joining and splitting bytes, and what a form says of the
instructions it builds. -/

namespace Sys2Proof.Machine

@[simp] theorem joinBytes_hiByte_loByte (v : Word) : joinBytes (hiByte v) (loByte v) = v := by
  simp only [joinBytes, hiByte, loByte]
  apply BitVec.eq_of_getLsbD_eq
  intro i hi
  rw [BitVec.getLsbD_append]
  split_ifs with h
  · simp only [BitVec.getLsbD_setWidth, h, decide_true, Bool.true_and]
  · have e : 8 + (i - 8) = i := by omega
    have e' : i - 8 < 8 := by omega
    simp only [BitVec.getLsbD_extractLsb', e, e', decide_true, Bool.true_and]

@[simp] theorem hiByte_joinBytes (h l : Byte) : hiByte (joinBytes h l) = h := by
  apply BitVec.eq_of_getLsbD_eq
  intro i hi
  have e : ¬ 8 + i < 8 := by omega
  simp only [joinBytes, hiByte, BitVec.getLsbD_extractLsb', BitVec.getLsbD_append, hi, e, decide_true,
    Bool.true_and, if_false, Nat.add_sub_cancel_left]

@[simp] theorem loByte_joinBytes (h l : Byte) : loByte (joinBytes h l) = l := by
  apply BitVec.eq_of_getLsbD_eq
  intro i hi
  simp only [joinBytes, loByte, BitVec.getLsbD_setWidth, BitVec.getLsbD_append, hi, decide_true,
    Bool.true_and, if_true]

end Sys2Proof.Machine

namespace Sys2Proof

open Sys2Proof.Machine

/-- The list of forms is complete. -/
theorem mem_formAll (f : Form) : f ∈ Form.all := by cases f <;> decide

/-- A form is the form of what it builds. -/
@[simp] theorem form_build (f : Form) (b1 b2 : Byte) : (f.build b1 b2).form = f := by cases f <;> rfl

/-- The opcode byte of a decoded form is the byte it was decoded from. -/
theorem opc_of_formOf {c : EncodingParams} {op : Byte} {f : Form} (h : formOf c op = some f) :
    c.opc f = op := by
  simpa using List.find?_some h

/-- Under a legal map a form is found by its own opcode byte. -/
theorem formOf_opc {c : EncodingParams} (hc : c.legal = true) (f : Form) : formOf c (c.opc f) = some f := by
  have hn : (Form.all.map c.opc).Nodup := of_decide_eq_true hc
  have hinj := List.inj_on_of_nodup_map hn
  cases h : formOf c (c.opc f) with
  | none =>
    have := List.find?_eq_none.mp h f (mem_formAll f)
    simp at this
  | some g =>
    exact congrArg some (hinj (mem_formAll g) (mem_formAll f) (opc_of_formOf h))

/-- The operand bytes of what a one-byte form builds. -/
theorem operandBytes_size1 {f : Form} (h : f.size = 1) (b1 b2 : Byte) :
    (f.build b1 b2).operand.bytes = [] := by
  cases f <;> first | rfl | exact absurd h (by decide)

/-- The operand bytes of what a two-byte form builds. -/
theorem operandBytes_size2 {f : Form} (h : f.size = 2) (b1 b2 : Byte) :
    (f.build b1 b2).operand.bytes = [b1] := by
  cases f <;> first | rfl | exact absurd h (by decide)

/-- The operand bytes of what a three-byte form builds. -/
theorem operandBytes_size3 {f : Form} (h : f.size = 3) (b1 b2 : Byte) :
    (f.build b1 b2).operand.bytes = [b1, b2] := by
  cases f <;>
    first
      | exact absurd h (by decide)
      | simp only [Form.build, Instr.operand, Operand.bytes, hiByte_joinBytes, loByte_joinBytes]

/-- A form has one, two or three bytes (R110). -/
theorem form_size_cases (f : Form) : f.size = 1 ∨ f.size = 2 ∨ f.size = 3 := by
  cases f <;> decide

end Sys2Proof
end

