-- ==== Sys2Proof/Laws/Flags.lean ====
section
/-! SUPPORT. The flags after each flag computation (10_state.md R34, R43 to R45), and the ALU's results. -/

namespace Sys2Proof.Machine

/-- Two flags have two bits. -/
theorem Flag.bit_inj {g g' : Flag} : g.bit = g'.bit ↔ g = g' := by
  cases g <;> cases g' <;> decide

/-- A flag's mask has its own bit and no other. -/
theorem getLsbD_mask (g g' : Flag) : g.mask.getLsbD g'.bit = decide (g = g') := by
  cases g <;> cases g' <;> rfl

theorem Flag.bit_lt (g : Flag) : g.bit < 8 := by cases g <;> decide

/-- A flag written reads back. -/
@[simp] theorem flagOf_setFlag_self (g : Flag) (v : Bool) (cc : Byte) : flagOf g (setFlag g v cc) = v := by
  cases v <;>
    simp only [flagOf, setFlag, if_true, Bool.false_eq_true, if_false, BitVec.getLsbD_or,
      BitVec.getLsbD_and, BitVec.getLsbD_not, getLsbD_mask, Flag.bit_lt] <;> simp

/-- Writing one flag keeps the others (R45). -/
theorem flagOf_setFlag_ne {g g' : Flag} (h : g' ≠ g) (v : Bool) (cc : Byte) :
    flagOf g' (setFlag g v cc) = flagOf g' cc := by
  cases v <;>
    simp only [flagOf, setFlag, if_true, Bool.false_eq_true, if_false, BitVec.getLsbD_or,
      BitVec.getLsbD_and, BitVec.getLsbD_not, getLsbD_mask, Flag.bit_lt, Ne.symm h] <;> simp

/-- Every flag after one is written. -/
theorem flagOf_setFlag (g g' : Flag) (v : Bool) (cc : Byte) :
    flagOf g' (setFlag g v cc) = if g' = g then v else flagOf g' cc := by
  split_ifs with h
  · subst h; exact flagOf_setFlag_self ..
  · exact flagOf_setFlag_ne h ..

/-- Every flag after `UpdateNZ8` (R43). -/
theorem flagOf_updateNZ8 (g : Flag) (v cc : Byte) :
    flagOf g (updateNZ8 v cc) =
      if g = .n then v.getLsbD 7 else if g = .z then decide (v = 0) else flagOf g cc := by
  unfold updateNZ8
  rw [flagOf_setFlag, flagOf_setFlag]
  congr

/-- Every flag after `UpdateNZ16` (R44). -/
theorem flagOf_updateNZ16 (g : Flag) (v : Word) (cc : Byte) :
    flagOf g (updateNZ16 v cc) =
      if g = .n then v.getLsbD 15 else if g = .z then decide (v = 0) else flagOf g cc := by
  unfold updateNZ16
  rw [flagOf_setFlag, flagOf_setFlag]
  congr

/-- The result of `ADD8` is the sum modulo 256. -/
theorem add8_value (cc r m : Byte) : (add8 cc r m).value = r + m := by
  apply BitVec.eq_of_toNat_eq
  simp [add8]

/-- The flags after `ADD8` (R200). -/
theorem flagOf_add8 (g : Flag) (cc r m : Byte) :
    flagOf g (add8 cc r m).cc =
      if g = .c then decide (0xFF < r.toNat + m.toNat)
      else if g = .n then (r + m).getLsbD 7
      else if g = .z then decide (r + m = 0) else flagOf g cc := by
  have h := add8_value cc r m
  simp only [add8] at h ⊢
  rw [flagOf_setFlag, flagOf_updateNZ8, h]

/-- The result of `SUB8` is the difference modulo 256. -/
theorem sub8_value (cc r m : Byte) : (sub8 cc r m).value = r - m := by
  apply BitVec.eq_of_toInt_eq
  simp only [sub8, BitVec.toInt_ofInt, BitVec.toInt_sub]
  rw [BitVec.toInt_eq_toNat_bmod, BitVec.toInt_eq_toNat_bmod]
  simp

/-- The flags after `SUB8` (R201). -/
theorem flagOf_sub8 (g : Flag) (cc r m : Byte) :
    flagOf g (sub8 cc r m).cc =
      if g = .c then decide (r.toNat < m.toNat)
      else if g = .n then (r - m).getLsbD 7
      else if g = .z then decide (r - m = 0) else flagOf g cc := by
  have h := sub8_value cc r m
  simp only [sub8] at h ⊢
  rw [flagOf_setFlag, flagOf_updateNZ8, h]
  congr 2
  exact propext ⟨fun h => by omega, fun h => by omega⟩

/-- The result of `INC8`. -/
theorem inc8_value (cc r : Byte) : (inc8 cc r).value = r + 1 := by
  apply BitVec.eq_of_toNat_eq
  simp [inc8]

/-- The flags after `INC8` (R202). -/
theorem flagOf_inc8 (g : Flag) (cc r : Byte) :
    flagOf g (inc8 cc r).cc =
      if g = .n then (r + 1).getLsbD 7 else if g = .z then decide (r + 1 = 0) else flagOf g cc := by
  have h := inc8_value cc r
  simp only [inc8] at h ⊢
  rw [flagOf_updateNZ8, h]

/-- The result of `DEC8`. -/
theorem dec8_value (cc r : Byte) : (dec8 cc r).value = r - 1 := by
  apply BitVec.eq_of_toInt_eq
  simp only [dec8, BitVec.toInt_ofInt, BitVec.toInt_sub]
  rw [BitVec.toInt_eq_toNat_bmod]
  simp

/-- The flags after `DEC8` (R203). -/
theorem flagOf_dec8 (g : Flag) (cc r : Byte) :
    flagOf g (dec8 cc r).cc =
      if g = .n then (r - 1).getLsbD 7 else if g = .z then decide (r - 1 = 0) else flagOf g cc := by
  have h := dec8_value cc r
  simp only [dec8] at h ⊢
  rw [flagOf_updateNZ8, h]

end Sys2Proof.Machine
end

