-- ==== Sys2Proof/Laws/Memory.lean ====
section
/-! SUPPORT. The laws of memory: a read after a write, the frame of a write, the canonical form kept by
every operation, and a memory in canonical form determined by what it reads. -/

namespace Sys2Proof.Machine

/-! ## One cell -/

/-- A key below every listed key is not listed. -/
theorem peek_of_all_lt {m : Memory} {k : Nat} (h : m.all (fun c => decide (k < c.1)) = true) :
    m.peek k = Memory.resetByte k := by
  induction m with
  | nil => rfl
  | cons c m ih =>
    obtain ⟨j, w⟩ := c
    simp only [List.all_cons, Bool.and_eq_true, decide_eq_true_eq] at h
    simp only [Memory.peek]
    rw [if_neg (by omega)]
    exact ih h.2

/-- A poke leaves every other key alone, in any memory. -/
theorem peek_poke_ne (m : Memory) {k k' : Nat} (v : Byte) (h : k' ≠ k) :
    (m.poke k v).peek k' = m.peek k' := by
  induction m with
  | nil =>
    simp only [Memory.poke]
    split
    · rfl
    · simp [Memory.peek, Ne.symm h]
  | cons c m ih =>
    obtain ⟨j, w⟩ := c
    simp only [Memory.poke]
    split_ifs with h1 h2 h3 h4
    · rfl
    · simp [Memory.peek, Ne.symm h]
    · subst h3; simp [Memory.peek, Ne.symm h]
    · subst h3; simp [Memory.peek, Ne.symm h]
    · simp only [Memory.peek, ih]

/-- A poke is read back, where keys rise. -/
theorem peek_poke_self {m : Memory} (hm : m.rising = true) (k : Nat) (v : Byte) :
    (m.poke k v).peek k = v := by
  induction m with
  | nil =>
    simp only [Memory.poke]
    split
    · rename_i h; simp [Memory.peek, h]
    · simp [Memory.peek]
  | cons c m ih =>
    obtain ⟨j, w⟩ := c
    simp only [Memory.rising, Bool.and_eq_true] at hm
    simp only [Memory.poke]
    split_ifs with h1 h2 h3 h4
    · rw [h2]
      apply peek_of_all_lt
      simp only [List.all_cons, Bool.and_eq_true, decide_eq_true_eq]
      refine ⟨h1, ?_⟩
      simp only [List.all_eq_true, decide_eq_true_eq] at hm ⊢
      intro c hc
      exact Nat.lt_trans h1 (hm.1 c hc)
    · simp [Memory.peek]
    · subst h3; rw [h4]; exact peek_of_all_lt hm.1
    · simp [Memory.peek]
    · simp only [Memory.peek]
      rw [if_neg (Ne.symm h3)]
      exact ih hm.2

/-- What a poke can list: the old cells, and the new one if it differs from the reset byte. -/
theorem mem_poke {m : Memory} {k : Nat} {v : Byte} {c : Host.Cell} (h : c ∈ m.poke k v) :
    c ∈ m ∨ (c = (k, v) ∧ v ≠ Memory.resetByte k) := by
  induction m with
  | nil =>
    simp only [Memory.poke] at h
    split at h
    · simp at h
    · rename_i hv; simp at h; exact .inr ⟨h, hv⟩
  | cons d m ih =>
    obtain ⟨j, w⟩ := d
    simp only [Memory.poke] at h
    split_ifs at h with h1 h2 h3 h4
    · exact .inl h
    · rcases List.mem_cons.mp h with h | h
      · exact .inr ⟨h, h2⟩
      · exact .inl h
    · exact .inl (List.mem_cons_of_mem _ h)
    · rcases List.mem_cons.mp h with h | h
      · exact .inr ⟨h, h4⟩
      · exact .inl (List.mem_cons_of_mem _ h)
    · rcases List.mem_cons.mp h with h | h
      · exact .inl (h ▸ List.mem_cons_self ..)
      · exact (ih h).imp (List.mem_cons_of_mem _) id

/-- A poke keeps the keys rising. -/
theorem rising_poke {m : Memory} (hm : m.rising = true) (k : Nat) (v : Byte) :
    (m.poke k v).rising = true := by
  induction m with
  | nil => simp only [Memory.poke]; split <;> simp [Memory.rising]
  | cons c m ih =>
    obtain ⟨j, w⟩ := c
    have hm' := hm
    simp only [Memory.rising, Bool.and_eq_true, List.all_eq_true, decide_eq_true_eq] at hm'
    simp only [Memory.poke]
    split_ifs with h1 h2 h3 h4
    · exact hm
    · simp only [Memory.rising, Bool.and_eq_true, List.all_eq_true, decide_eq_true_eq, List.mem_cons]
      refine ⟨?_, hm'⟩
      rintro c (rfl | hc)
      · exact h1
      · exact Nat.lt_trans h1 (hm'.1 c hc)
    · exact hm'.2
    · subst h3
      simp only [Memory.rising, Bool.and_eq_true, List.all_eq_true, decide_eq_true_eq]
      exact hm'
    · simp only [Memory.rising, Bool.and_eq_true, List.all_eq_true, decide_eq_true_eq]
      refine ⟨fun c hc => ?_, ih hm'.2⟩
      rcases mem_poke hc with hc | ⟨rfl, -⟩
      · exact hm'.1 c hc
      · show j < k; omega

/-- The canonical form, in words. -/
theorem wf_iff {m : Memory} : m.wf = true ↔
    m.rising = true ∧ ∀ c ∈ m, c.1 < 0x10000 ∧ c.2 ≠ Memory.resetByte c.1 := by
  simp [Memory.wf]

theorem rising_of_wf {m : Memory} (h : m.wf = true) : m.rising = true := (wf_iff.mp h).1

/-- A poke at an address keeps the canonical form. -/
theorem wf_poke {m : Memory} (hm : m.wf = true) {k : Nat} (hk : k < 0x10000) (v : Byte) :
    (m.poke k v).wf = true := by
  obtain ⟨hr, hc⟩ := wf_iff.mp hm
  refine wf_iff.mpr ⟨rising_poke hr k v, fun c h => ?_⟩
  rcases mem_poke h with h | ⟨rfl, hv⟩
  · exact hc c h
  · exact ⟨hk, hv⟩

/-- A poke in the RAM array leaves ROM intact. -/
theorem romIntact_poke {m : Memory} (hm : m.romIntact = true) {k : Nat} (hk : k < 0x8000) (v : Byte) :
    (m.poke k v).romIntact = true := by
  simp only [Memory.romIntact, List.all_eq_true, decide_eq_true_eq] at hm ⊢
  intro c h
  rcases mem_poke h with h | ⟨rfl, -⟩
  · exact hm c h
  · exact hk

/-- A key that is not listed reads as the reset byte. -/
theorem peek_of_not_listed {m : Memory} {k : Nat} (h : ∀ c ∈ m, c.1 ≠ k) :
    m.peek k = Memory.resetByte k := by
  induction m with
  | nil => rfl
  | cons c m ih =>
    obtain ⟨j, w⟩ := c
    simp only [Memory.peek]
    rw [if_neg (h _ (List.mem_cons_self ..))]
    exact ih fun c hc => h c (List.mem_cons_of_mem _ hc)

/-- A listed cell of a canonical memory is what its key reads. -/
theorem peek_of_mem {m : Memory} (hm : m.rising = true) {c : Host.Cell} (h : c ∈ m) :
    m.peek c.1 = c.2 := by
  induction m with
  | nil => simp at h
  | cons d m ih =>
    obtain ⟨j, w⟩ := d
    simp only [Memory.rising, Bool.and_eq_true, List.all_eq_true, decide_eq_true_eq] at hm
    rcases List.mem_cons.mp h with rfl | h
    · simp [Memory.peek]
    · have hj := hm.1 c h
      simp only [Memory.peek]
      rw [if_neg (by omega)]
      exact ih hm.2 h

/-! ## Reads and writes through the decoder -/

/-- A read is a look at the key of its address. -/
theorem read_eq_peek (m : Memory) (a : Word) : m.read a = m.peek a.toNat := by
  unfold Memory.read decodeAddress
  by_cases h : a.toNat < 0x8000
  · rw [if_pos h]; rfl
  · rw [if_neg h]
    have e : 0x8000 + (a.toNat - 0x8000) = a.toNat := Nat.add_sub_of_le (Nat.le_of_not_lt h)
    simp only [Memory.romByte, e]

/-- All that a write can do: put the byte into RAM, or nothing in ROM (R76, R77). -/
theorem write_eq (m : Memory) (a : Word) (v : Byte) :
    m.write a v = if a.toNat < 0x8000 then m.poke a.toNat v else m := by
  unfold Memory.write decodeAddress
  split_ifs <;> rfl

/-- A write to ROM changes nothing (R77). -/
theorem write_rom (m : Memory) {a : Word} (h : 0x8000 ≤ a.toNat) (v : Byte) : m.write a v = m := by
  rw [write_eq, if_neg (by omega)]

/-- A write leaves every other address alone. -/
theorem read_write_ne (m : Memory) {a a' : Word} (v : Byte) (h : a' ≠ a) :
    (m.write a v).read a' = m.read a' := by
  rw [write_eq]
  split_ifs
  · rw [read_eq_peek, read_eq_peek, peek_poke_ne]
    exact fun e => h (BitVec.eq_of_toNat_eq e)
  · rfl

/-- A write to RAM is read back; a write to ROM is not seen (R76, R77). -/
theorem read_write_self {m : Memory} (hm : m.wf = true) (a : Word) (v : Byte) :
    (m.write a v).read a = if a.toNat < 0x8000 then v else m.read a := by
  rw [write_eq]
  split_ifs
  · rw [read_eq_peek, peek_poke_self (rising_of_wf hm)]
  · rfl

/-- A write keeps the canonical form. -/
theorem wf_write {m : Memory} (hm : m.wf = true) (a : Word) (v : Byte) : (m.write a v).wf = true := by
  rw [write_eq]
  split_ifs
  · exact wf_poke hm a.isLt v
  · exact hm

/-- A write leaves ROM intact (R74). -/
theorem romIntact_write {m : Memory} (hm : m.romIntact = true) (a : Word) (v : Byte) :
    (m.write a v).romIntact = true := by
  rw [write_eq]
  split_ifs with h
  · exact romIntact_poke hm h v
  · exact hm

/-- A 16-bit write keeps the canonical form. -/
theorem wf_write16 {m : Memory} (hm : m.wf = true) (a v : Word) : (m.write16 a v).wf = true :=
  wf_write (wf_write hm _ _) _ _

/-- A 16-bit write leaves ROM intact. -/
theorem romIntact_write16 {m : Memory} (hm : m.romIntact = true) (a v : Word) :
    (m.write16 a v).romIntact = true :=
  romIntact_write (romIntact_write hm _ _) _ _

/-- A 16-bit write leaves every address but its two alone. -/
theorem read_write16_ne (m : Memory) {a a' : Word} (v : Word) (h : a' ≠ a) (h' : a' ≠ a + 1) :
    (m.write16 a v).read a' = m.read a' := by
  unfold Memory.write16
  rw [read_write_ne _ _ h', read_write_ne _ _ h]

/-- The memory after `MemReset` is canonical. -/
theorem wf_afterReset : Memory.afterReset.wf = true := rfl

/-- The memory after `MemReset` has its ROM intact. -/
theorem romIntact_afterReset : Memory.afterReset.romIntact = true := rfl

/-- The memory after `MemReset` reads as R86 says. -/
theorem read_afterReset (a : Word) : Memory.afterReset.read a = Memory.resetByte a.toNat := by
  rw [read_eq_peek]; rfl

/-- Where ROM is intact it reads as `MemReset` left it (R74). -/
theorem read_rom_of_intact {m : Memory} (hm : m.romIntact = true) {a : Word} (h : 0x8000 ≤ a.toNat) :
    m.read a = Memory.resetByte a.toNat := by
  rw [read_eq_peek]
  apply peek_of_not_listed
  simp only [Memory.romIntact, List.all_eq_true, decide_eq_true_eq] at hm
  intro c hc
  have := hm c hc
  omega

/-- Where ROM is intact the reset vector holds 0x0000 (R85). -/
theorem resetVector_of_intact {m : Memory} (hm : m.romIntact = true) : m.read16 0xFFFE = 0 := by
  unfold Memory.read16
  rw [read_rom_of_intact hm (by decide), read_rom_of_intact hm (by decide)]
  decide

end Sys2Proof.Machine
end

