-- ==== Sys2Proof/Laws/State.lean ====
section
/-! SUPPORT. What each shared operation does to each field of the state, one lemma per field: later
proofs rewrite with these and unfold no update. -/

namespace Sys2Proof.Machine

variable (st : State)

@[simp] theorem advance_a (n : Nat) : (st.advance n).a = st.a := rfl
@[simp] theorem advance_b (n : Nat) : (st.advance n).b = st.b := rfl
@[simp] theorem advance_dp (n : Nat) : (st.advance n).dp = st.dp := rfl
@[simp] theorem advance_cc (n : Nat) : (st.advance n).cc = st.cc := rfl
@[simp] theorem advance_x (n : Nat) : (st.advance n).x = st.x := rfl
@[simp] theorem advance_y (n : Nat) : (st.advance n).y = st.y := rfl
@[simp] theorem advance_s (n : Nat) : (st.advance n).s = st.s := rfl
@[simp] theorem advance_u (n : Nat) : (st.advance n).u = st.u := rfl
@[simp] theorem advance_pc (n : Nat) : (st.advance n).pc = st.pc + BitVec.ofNat 16 n := rfl
@[simp] theorem advance_halted (n : Nat) : (st.advance n).halted = st.halted := rfl
@[simp] theorem advance_mem (n : Nat) : (st.advance n).mem = st.mem := rfl

@[simp] theorem setAcc_a_a (v : Byte) : (st.setAcc .a v).a = v := rfl
@[simp] theorem setAcc_b_a (v : Byte) : (st.setAcc .b v).a = st.a := rfl
@[simp] theorem setAcc_b_b (v : Byte) : (st.setAcc .b v).b = v := rfl
@[simp] theorem setAcc_a_b (v : Byte) : (st.setAcc .a v).b = st.b := rfl
@[simp] theorem setAcc_dp (r : Acc) (v : Byte) : (st.setAcc r v).dp = st.dp := by cases r <;> rfl
@[simp] theorem setAcc_cc (r : Acc) (v : Byte) : (st.setAcc r v).cc = st.cc := by cases r <;> rfl
@[simp] theorem setAcc_x (r : Acc) (v : Byte) : (st.setAcc r v).x = st.x := by cases r <;> rfl
@[simp] theorem setAcc_y (r : Acc) (v : Byte) : (st.setAcc r v).y = st.y := by cases r <;> rfl
@[simp] theorem setAcc_s (r : Acc) (v : Byte) : (st.setAcc r v).s = st.s := by cases r <;> rfl
@[simp] theorem setAcc_u (r : Acc) (v : Byte) : (st.setAcc r v).u = st.u := by cases r <;> rfl
@[simp] theorem setAcc_pc (r : Acc) (v : Byte) : (st.setAcc r v).pc = st.pc := by cases r <;> rfl
@[simp] theorem setAcc_halted (r : Acc) (v : Byte) : (st.setAcc r v).halted = st.halted := by cases r <;> rfl
@[simp] theorem setAcc_mem (r : Acc) (v : Byte) : (st.setAcc r v).mem = st.mem := by cases r <;> rfl
@[simp] theorem acc_setAcc (r : Acc) (v : Byte) : (st.setAcc r v).acc r = v := by cases r <;> rfl
@[simp] theorem acc_advance (r : Acc) (n : Nat) : (st.advance n).acc r = st.acc r := by cases r <;> rfl

@[simp] theorem memWrite_a (ea : Word) (v : Byte) : (st.memWrite ea v).a = st.a := rfl
@[simp] theorem memWrite_b (ea : Word) (v : Byte) : (st.memWrite ea v).b = st.b := rfl
@[simp] theorem memWrite_dp (ea : Word) (v : Byte) : (st.memWrite ea v).dp = st.dp := rfl
@[simp] theorem memWrite_cc (ea : Word) (v : Byte) : (st.memWrite ea v).cc = st.cc := rfl
@[simp] theorem memWrite_x (ea : Word) (v : Byte) : (st.memWrite ea v).x = st.x := rfl
@[simp] theorem memWrite_y (ea : Word) (v : Byte) : (st.memWrite ea v).y = st.y := rfl
@[simp] theorem memWrite_s (ea : Word) (v : Byte) : (st.memWrite ea v).s = st.s := rfl
@[simp] theorem memWrite_u (ea : Word) (v : Byte) : (st.memWrite ea v).u = st.u := rfl
@[simp] theorem memWrite_pc (ea : Word) (v : Byte) : (st.memWrite ea v).pc = st.pc := rfl
@[simp] theorem memWrite_halted (ea : Word) (v : Byte) : (st.memWrite ea v).halted = st.halted := rfl
@[simp] theorem memWrite_mem (ea : Word) (v : Byte) : (st.memWrite ea v).mem = st.mem.write ea v := rfl

@[simp] theorem memWrite16_a (ea v : Word) : (st.memWrite16 ea v).a = st.a := rfl
@[simp] theorem memWrite16_b (ea v : Word) : (st.memWrite16 ea v).b = st.b := rfl
@[simp] theorem memWrite16_dp (ea v : Word) : (st.memWrite16 ea v).dp = st.dp := rfl
@[simp] theorem memWrite16_cc (ea v : Word) : (st.memWrite16 ea v).cc = st.cc := rfl
@[simp] theorem memWrite16_x (ea v : Word) : (st.memWrite16 ea v).x = st.x := rfl
@[simp] theorem memWrite16_y (ea v : Word) : (st.memWrite16 ea v).y = st.y := rfl
@[simp] theorem memWrite16_s (ea v : Word) : (st.memWrite16 ea v).s = st.s := rfl
@[simp] theorem memWrite16_u (ea v : Word) : (st.memWrite16 ea v).u = st.u := rfl
@[simp] theorem memWrite16_pc (ea v : Word) : (st.memWrite16 ea v).pc = st.pc := rfl
@[simp] theorem memWrite16_halted (ea v : Word) : (st.memWrite16 ea v).halted = st.halted := rfl
@[simp] theorem memWrite16_mem (ea v : Word) : (st.memWrite16 ea v).mem = st.mem.write16 ea v := rfl

@[simp] theorem loadAcc_a (r : Acc) (m : Byte) : (loadAcc r m st).a = (st.setAcc r m).a := rfl
@[simp] theorem loadAcc_b (r : Acc) (m : Byte) : (loadAcc r m st).b = (st.setAcc r m).b := rfl
@[simp] theorem loadAcc_dp (r : Acc) (m : Byte) : (loadAcc r m st).dp = st.dp := by cases r <;> rfl
@[simp] theorem loadAcc_cc (r : Acc) (m : Byte) : (loadAcc r m st).cc = updateNZ8 m st.cc := rfl
@[simp] theorem loadAcc_x (r : Acc) (m : Byte) : (loadAcc r m st).x = st.x := by cases r <;> rfl
@[simp] theorem loadAcc_y (r : Acc) (m : Byte) : (loadAcc r m st).y = st.y := by cases r <;> rfl
@[simp] theorem loadAcc_s (r : Acc) (m : Byte) : (loadAcc r m st).s = st.s := by cases r <;> rfl
@[simp] theorem loadAcc_u (r : Acc) (m : Byte) : (loadAcc r m st).u = st.u := by cases r <;> rfl
@[simp] theorem loadAcc_pc (r : Acc) (m : Byte) : (loadAcc r m st).pc = st.pc := by cases r <;> rfl
@[simp] theorem loadAcc_halted (r : Acc) (m : Byte) : (loadAcc r m st).halted = st.halted := by cases r <;> rfl
@[simp] theorem loadAcc_mem (r : Acc) (m : Byte) : (loadAcc r m st).mem = st.mem := by cases r <;> rfl
@[simp] theorem loadAcc_acc (r : Acc) (m : Byte) : (loadAcc r m st).acc r = m := by cases r <;> rfl

@[simp] theorem writeAlu_a (r : Acc) (res : AluResult) : (writeAlu r res st).a = (st.setAcc r res.value).a := rfl
@[simp] theorem writeAlu_b (r : Acc) (res : AluResult) : (writeAlu r res st).b = (st.setAcc r res.value).b := rfl
@[simp] theorem writeAlu_dp (r : Acc) (res : AluResult) : (writeAlu r res st).dp = st.dp := by cases r <;> rfl
@[simp] theorem writeAlu_cc (r : Acc) (res : AluResult) : (writeAlu r res st).cc = res.cc := rfl
@[simp] theorem writeAlu_x (r : Acc) (res : AluResult) : (writeAlu r res st).x = st.x := by cases r <;> rfl
@[simp] theorem writeAlu_y (r : Acc) (res : AluResult) : (writeAlu r res st).y = st.y := by cases r <;> rfl
@[simp] theorem writeAlu_s (r : Acc) (res : AluResult) : (writeAlu r res st).s = st.s := by cases r <;> rfl
@[simp] theorem writeAlu_u (r : Acc) (res : AluResult) : (writeAlu r res st).u = st.u := by cases r <;> rfl
@[simp] theorem writeAlu_pc (r : Acc) (res : AluResult) : (writeAlu r res st).pc = st.pc := by cases r <;> rfl
@[simp] theorem writeAlu_halted (r : Acc) (res : AluResult) : (writeAlu r res st).halted = st.halted := by cases r <;> rfl
@[simp] theorem writeAlu_mem (r : Acc) (res : AluResult) : (writeAlu r res st).mem = st.mem := by cases r <;> rfl
@[simp] theorem writeAlu_acc (r : Acc) (res : AluResult) : (writeAlu r res st).acc r = res.value := by cases r <;> rfl

@[simp] theorem loadX_a (v : Word) : (loadX v st).a = st.a := rfl
@[simp] theorem loadX_b (v : Word) : (loadX v st).b = st.b := rfl
@[simp] theorem loadX_dp (v : Word) : (loadX v st).dp = st.dp := rfl
@[simp] theorem loadX_cc (v : Word) : (loadX v st).cc = updateNZ16 v st.cc := rfl
@[simp] theorem loadX_x (v : Word) : (loadX v st).x = v := rfl
@[simp] theorem loadX_y (v : Word) : (loadX v st).y = st.y := rfl
@[simp] theorem loadX_s (v : Word) : (loadX v st).s = st.s := rfl
@[simp] theorem loadX_u (v : Word) : (loadX v st).u = st.u := rfl
@[simp] theorem loadX_pc (v : Word) : (loadX v st).pc = st.pc := rfl
@[simp] theorem loadX_halted (v : Word) : (loadX v st).halted = st.halted := rfl
@[simp] theorem loadX_mem (v : Word) : (loadX v st).mem = st.mem := rfl

@[simp] theorem storeAcc_a (r : Acc) (ea : Word) : (storeAcc r ea st).a = st.a := rfl
@[simp] theorem storeAcc_b (r : Acc) (ea : Word) : (storeAcc r ea st).b = st.b := rfl
@[simp] theorem storeAcc_dp (r : Acc) (ea : Word) : (storeAcc r ea st).dp = st.dp := rfl
@[simp] theorem storeAcc_cc (r : Acc) (ea : Word) : (storeAcc r ea st).cc = st.cc := rfl
@[simp] theorem storeAcc_x (r : Acc) (ea : Word) : (storeAcc r ea st).x = st.x := rfl
@[simp] theorem storeAcc_y (r : Acc) (ea : Word) : (storeAcc r ea st).y = st.y := rfl
@[simp] theorem storeAcc_s (r : Acc) (ea : Word) : (storeAcc r ea st).s = st.s := rfl
@[simp] theorem storeAcc_u (r : Acc) (ea : Word) : (storeAcc r ea st).u = st.u := rfl
@[simp] theorem storeAcc_pc (r : Acc) (ea : Word) : (storeAcc r ea st).pc = st.pc := rfl
@[simp] theorem storeAcc_halted (r : Acc) (ea : Word) : (storeAcc r ea st).halted = st.halted := rfl
@[simp] theorem storeAcc_mem (r : Acc) (ea : Word) : (storeAcc r ea st).mem = st.mem.write ea (st.acc r) := rfl

@[simp] theorem storeX_a (ea : Word) : (storeX ea st).a = st.a := rfl
@[simp] theorem storeX_b (ea : Word) : (storeX ea st).b = st.b := rfl
@[simp] theorem storeX_dp (ea : Word) : (storeX ea st).dp = st.dp := rfl
@[simp] theorem storeX_cc (ea : Word) : (storeX ea st).cc = st.cc := rfl
@[simp] theorem storeX_x (ea : Word) : (storeX ea st).x = st.x := rfl
@[simp] theorem storeX_y (ea : Word) : (storeX ea st).y = st.y := rfl
@[simp] theorem storeX_s (ea : Word) : (storeX ea st).s = st.s := rfl
@[simp] theorem storeX_u (ea : Word) : (storeX ea st).u = st.u := rfl
@[simp] theorem storeX_pc (ea : Word) : (storeX ea st).pc = st.pc := rfl
@[simp] theorem storeX_halted (ea : Word) : (storeX ea st).halted = st.halted := rfl
@[simp] theorem storeX_mem (ea : Word) : (storeX ea st).mem = st.mem.write16 ea st.x := rfl

@[simp] theorem branchIf_a (taken : Bool) (off8 : Byte) : (branchIf taken off8 st).a = st.a := by cases taken <;> rfl
@[simp] theorem branchIf_b (taken : Bool) (off8 : Byte) : (branchIf taken off8 st).b = st.b := by cases taken <;> rfl
@[simp] theorem branchIf_dp (taken : Bool) (off8 : Byte) : (branchIf taken off8 st).dp = st.dp := by cases taken <;> rfl
@[simp] theorem branchIf_cc (taken : Bool) (off8 : Byte) : (branchIf taken off8 st).cc = st.cc := by cases taken <;> rfl
@[simp] theorem branchIf_x (taken : Bool) (off8 : Byte) : (branchIf taken off8 st).x = st.x := by cases taken <;> rfl
@[simp] theorem branchIf_y (taken : Bool) (off8 : Byte) : (branchIf taken off8 st).y = st.y := by cases taken <;> rfl
@[simp] theorem branchIf_s (taken : Bool) (off8 : Byte) : (branchIf taken off8 st).s = st.s := by cases taken <;> rfl
@[simp] theorem branchIf_u (taken : Bool) (off8 : Byte) : (branchIf taken off8 st).u = st.u := by cases taken <;> rfl
@[simp] theorem branchIf_pc (taken : Bool) (off8 : Byte) : (branchIf taken off8 st).pc = if taken then branchTarget st.pc off8 else st.pc := by cases taken <;> rfl
@[simp] theorem branchIf_halted (taken : Bool) (off8 : Byte) : (branchIf taken off8 st).halted = st.halted := by cases taken <;> rfl
@[simp] theorem branchIf_mem (taken : Bool) (off8 : Byte) : (branchIf taken off8 st).mem = st.mem := by cases taken <;> rfl

@[simp] theorem halt_a : (halt st).a = st.a := rfl
@[simp] theorem halt_b : (halt st).b = st.b := rfl
@[simp] theorem halt_dp : (halt st).dp = st.dp := rfl
@[simp] theorem halt_cc : (halt st).cc = st.cc := rfl
@[simp] theorem halt_x : (halt st).x = st.x := rfl
@[simp] theorem halt_y : (halt st).y = st.y := rfl
@[simp] theorem halt_s : (halt st).s = st.s := rfl
@[simp] theorem halt_u : (halt st).u = st.u := rfl
@[simp] theorem halt_pc : (halt st).pc = st.pc := rfl
@[simp] theorem halt_halted : (halt st).halted = true := rfl
@[simp] theorem halt_mem : (halt st).mem = st.mem := rfl

@[simp] theorem raiseInvalidOpcode_a (op : Byte) : (raiseInvalidOpcode op st).a = st.a := rfl
@[simp] theorem raiseInvalidOpcode_b (op : Byte) : (raiseInvalidOpcode op st).b = st.b := rfl
@[simp] theorem raiseInvalidOpcode_dp (op : Byte) : (raiseInvalidOpcode op st).dp = st.dp := rfl
@[simp] theorem raiseInvalidOpcode_cc (op : Byte) : (raiseInvalidOpcode op st).cc = st.cc := rfl
@[simp] theorem raiseInvalidOpcode_x (op : Byte) : (raiseInvalidOpcode op st).x = st.x := rfl
@[simp] theorem raiseInvalidOpcode_y (op : Byte) : (raiseInvalidOpcode op st).y = st.y := rfl
@[simp] theorem raiseInvalidOpcode_s (op : Byte) : (raiseInvalidOpcode op st).s = st.s := rfl
@[simp] theorem raiseInvalidOpcode_u (op : Byte) : (raiseInvalidOpcode op st).u = st.u := rfl
@[simp] theorem raiseInvalidOpcode_pc (op : Byte) : (raiseInvalidOpcode op st).pc = st.pc := rfl
@[simp] theorem raiseInvalidOpcode_halted (op : Byte) : (raiseInvalidOpcode op st).halted = true := rfl
@[simp] theorem raiseInvalidOpcode_mem (op : Byte) : (raiseInvalidOpcode op st).mem = st.mem := rfl

@[simp] theorem procReset_a : (procReset st).a = 0 := rfl
@[simp] theorem procReset_b : (procReset st).b = 0 := rfl
@[simp] theorem procReset_dp : (procReset st).dp = 0 := rfl
@[simp] theorem procReset_cc : (procReset st).cc = 0x10 := rfl
@[simp] theorem procReset_x : (procReset st).x = 0 := rfl
@[simp] theorem procReset_y : (procReset st).y = 0 := rfl
@[simp] theorem procReset_s : (procReset st).s = 0 := rfl
@[simp] theorem procReset_u : (procReset st).u = 0 := rfl
@[simp] theorem procReset_pc : (procReset st).pc = st.memRead16 0xFFFE := rfl
@[simp] theorem procReset_halted : (procReset st).halted = false := rfl
@[simp] theorem procReset_mem : (procReset st).mem = st.mem := rfl

@[simp] theorem memReset_a : (memReset st).a = st.a := rfl
@[simp] theorem memReset_b : (memReset st).b = st.b := rfl
@[simp] theorem memReset_dp : (memReset st).dp = st.dp := rfl
@[simp] theorem memReset_cc : (memReset st).cc = st.cc := rfl
@[simp] theorem memReset_x : (memReset st).x = st.x := rfl
@[simp] theorem memReset_y : (memReset st).y = st.y := rfl
@[simp] theorem memReset_s : (memReset st).s = st.s := rfl
@[simp] theorem memReset_u : (memReset st).u = st.u := rfl
@[simp] theorem memReset_pc : (memReset st).pc = st.pc := rfl
@[simp] theorem memReset_halted : (memReset st).halted = st.halted := rfl
@[simp] theorem memReset_mem : (memReset st).mem = Memory.afterReset := rfl

/-- A read depends on the memory alone. -/
theorem memRead_of_mem_eq {s t : State} (h : t.mem = s.mem) (a : Word) : t.memRead a = s.memRead a := by
  simp only [State.memRead, h]

end Sys2Proof.Machine
end

