-- ==== Sys2Proof/Laws/Ops.lean ====
section
/-! SUPPORT. One lemma for each shared operation, saying once all it does in the terms of Safety.lean; the
operation's state is the one past its instruction's fetch. -/

namespace Sys2Proof.Machine

variable {s t : State}

/-! ## Frames -/

/-- Registers are kept when the seven fields are. -/
theorem regsKeptBut_nil (ha : t.a = s.a) (hb : t.b = s.b) (hdp : t.dp = s.dp) (hx : t.x = s.x)
    (hy : t.y = s.y) (hs : t.s = s.s) (hu : t.u = s.u) : RegsKeptBut [] s t := by
  intro r _
  cases r <;> simp only [State.reg, ha, hb, hdp, hx, hy, hs, hu]

/-- Flags are kept when CC is. -/
theorem flagsKeptBut_of_cc (h : t.cc = s.cc) (but : List Flag) : FlagsKeptBut but s t := by
  intro g _; simp only [State.flag, h]

/-- Memory is kept when the field is. -/
theorem memKept_of_mem (h : t.mem = s.mem) : MemKept s t := fun a => memRead_of_mem_eq h a

/-- Writing an accumulator leaves every other register (R31). -/
theorem regsKeptBut_loadAcc (r : Acc) (m : Byte) (n : Nat) :
    RegsKeptBut [r.reg] s (loadAcc r m (s.advance n)) := by
  intro r' h
  cases r <;> cases r' <;> first | rfl | exact absurd (List.mem_singleton.mpr rfl) h

/-- Writing an ALU result leaves every other register (R31). -/
theorem regsKeptBut_writeAlu (r : Acc) (res : AluResult) (n : Nat) :
    RegsKeptBut [r.reg] s (writeAlu r res (s.advance n)) := by
  intro r' h
  cases r <;> cases r' <;> first | rfl | exact absurd (List.mem_singleton.mpr rfl) h

/-! ## Loads -/

/-- All that loading an accumulator does (R178). -/
theorem loadAcc_spec (r : Acc) (m : Byte) (n : Nat) (s : State) :
    LoadsAcc r m n s (loadAcc r m (s.advance n)) where
  value := by simp
  n := by simp [State.flag, flagOf_updateNZ8]
  z := by simp [State.flag, flagOf_updateNZ8]
  flags := by
    intro g hg
    simp only [List.mem_cons, List.not_mem_nil, or_false, not_or] at hg
    simp [State.flag, flagOf_updateNZ8, hg.1, hg.2]
  regs := regsKeptBut_loadAcc r m n
  pc := by simp
  memory := memKept_of_mem (by simp)
  halted := by simp

/-- All that loading X does (R178). -/
theorem loadX_spec (v : Word) (n : Nat) (s : State) : LoadsX v n s (loadX v (s.advance n)) where
  value := by simp
  n := by simp [State.flag, flagOf_updateNZ16]
  z := by simp [State.flag, flagOf_updateNZ16]
  flags := by
    intro g hg
    simp only [List.mem_cons, List.not_mem_nil, or_false, not_or] at hg
    simp [State.flag, flagOf_updateNZ16, hg.1, hg.2]
  regs := by
    intro r h
    cases r <;> first | rfl | exact absurd (List.mem_singleton.mpr rfl) h
  pc := by simp
  memory := memKept_of_mem (by simp)
  halted := by simp

/-! ## Stores -/

/-- All that storing an accumulator does, in a canonical memory (R179). -/
theorem storeAcc_spec (hm : s.mem.wf = true) (r : Acc) (ea : Word) (n : Nat) :
    Stores8 ea (s.acc r) n s (storeAcc r ea (s.advance n)) where
  stored := by simp [State.memRead, read_write_self hm]
  memory := by
    intro a ha
    simp only [List.mem_singleton] at ha
    simp [State.memRead, read_write_ne _ _ ha]
  flags := flagsKeptBut_of_cc (by simp) _
  regs := regsKeptBut_nil (by simp) (by simp) (by simp) (by simp) (by simp) (by simp) (by simp)
  pc := by simp
  halted := by simp

/-- An address is not the next one. -/
theorem addr_ne_succ (a : Word) : a ≠ a + 1 := by bv_omega

/-- All that storing X does, in a canonical memory (R179, R80). -/
theorem storeX_spec (hm : s.mem.wf = true) (ea : Word) (n : Nat) :
    Stores16 ea s.x n s (storeX ea (s.advance n)) where
  high := by
    simp only [State.memRead, storeX_mem, advance_mem, advance_x, Memory.write16]
    rw [read_write_ne _ _ (addr_ne_succ ea), read_write_self hm]
    rfl
  low := by
    simp only [State.memRead, storeX_mem, advance_mem, advance_x, Memory.write16]
    rw [read_write_self (wf_write hm _ _), read_write_ne _ _ (addr_ne_succ ea).symm]
    congr
  memory := by
    intro a ha
    simp only [List.mem_cons, List.not_mem_nil, or_false, not_or] at ha
    simp [State.memRead, read_write16_ne _ _ ha.1 ha.2]
  flags := flagsKeptBut_of_cc (by simp) _
  regs := regsKeptBut_nil (by simp) (by simp) (by simp) (by simp) (by simp) (by simp) (by simp)
  pc := by simp
  halted := by simp

/-- Every byte after a byte store, in the form of `byteAfter` (R77). -/
theorem read_of_stores8 {ea : Word} {v : Byte} {n : Nat} (h : Stores8 ea v n s t) (p : Word) :
    t.memRead p =
      if p.toNat < 0x8000 then (if p = ea then some v else none).getD (s.memRead p) else s.memRead p := by
  by_cases e : p = ea
  · subst e; rw [h.stored]; split <;> simp
  · rw [h.memory p (by simpa using e)]; simp [e]

/-- Every byte after a word store, in the form of `byteAfter` (R80). -/
theorem read_of_stores16 {ea v : Word} {n : Nat} (h : Stores16 ea v n s t) (p : Word) :
    t.memRead p =
      if p.toNat < 0x8000 then
        (if p = ea then some (v.extractLsb' 8 8)
          else if p = ea + 1 then some (v.extractLsb' 0 8) else none).getD (s.memRead p)
      else s.memRead p := by
  by_cases e : p = ea
  · subst e; rw [h.high]; split <;> simp
  · by_cases e' : p = ea + 1
    · subst e'; rw [h.low, if_neg e]; simp
    · rw [h.memory p (by simp only [List.mem_cons, e, e', List.not_mem_nil, or_self, not_false_eq_true]),
        if_neg e, if_neg e']
      simp

/-! ## Arithmetic -/

/-- All that adding to an accumulator does (R200). -/
theorem addAcc_spec (r : Acc) (m : Byte) (n : Nat) (s : State) :
    AddsTo r m n s (addAcc r m (s.advance n)) where
  value := by simp [addAcc, add8_value]
  n := by simp [addAcc, State.flag, flagOf_add8]
  z := by simp [addAcc, State.flag, flagOf_add8]
  c := by simp [addAcc, State.flag, flagOf_add8]
  flags := by
    intro g hg
    simp only [List.mem_cons, List.not_mem_nil, or_false, not_or] at hg
    simp [addAcc, State.flag, flagOf_add8, hg]
  regs := regsKeptBut_writeAlu r _ n
  pc := by simp [addAcc]
  memory := memKept_of_mem (by simp [addAcc])
  halted := by simp [addAcc]

/-- All that subtracting from an accumulator does (R201). -/
theorem subAcc_spec (r : Acc) (m : Byte) (n : Nat) (s : State) :
    SubtractsFrom r m n s (subAcc r m (s.advance n)) where
  value := by simp [subAcc, sub8_value]
  n := by simp [subAcc, State.flag, flagOf_sub8]
  z := by simp [subAcc, State.flag, flagOf_sub8]
  c := by simp [subAcc, State.flag, flagOf_sub8]
  flags := by
    intro g hg
    simp only [List.mem_cons, List.not_mem_nil, or_false, not_or] at hg
    simp [subAcc, State.flag, flagOf_sub8, hg]
  regs := regsKeptBut_writeAlu r _ n
  pc := by simp [subAcc]
  memory := memKept_of_mem (by simp [subAcc])
  halted := by simp [subAcc]

/-- All that incrementing an accumulator does: a load of r + 1, for C is kept (R202). -/
theorem incAcc_spec (r : Acc) (n : Nat) (s : State) :
    LoadsAcc r (s.acc r + 1) n s (incAcc r (s.advance n)) where
  value := by simp [incAcc, inc8_value]
  n := by simp [incAcc, State.flag, flagOf_inc8]
  z := by simp [incAcc, State.flag, flagOf_inc8]
  flags := by
    intro g hg
    simp only [List.mem_cons, List.not_mem_nil, or_false, not_or] at hg
    simp [incAcc, State.flag, flagOf_inc8, hg.1, hg.2]
  regs := regsKeptBut_writeAlu r _ n
  pc := by simp [incAcc]
  memory := memKept_of_mem (by simp [incAcc])
  halted := by simp [incAcc]

/-- All that decrementing an accumulator does: a load of r − 1, for C is kept (R203). -/
theorem decAcc_spec (r : Acc) (n : Nat) (s : State) :
    LoadsAcc r (s.acc r - 1) n s (decAcc r (s.advance n)) where
  value := by simp [decAcc, dec8_value]
  n := by simp [decAcc, State.flag, flagOf_dec8]
  z := by simp [decAcc, State.flag, flagOf_dec8]
  flags := by
    intro g hg
    simp only [List.mem_cons, List.not_mem_nil, or_false, not_or] at hg
    simp [decAcc, State.flag, flagOf_dec8, hg.1, hg.2]
  regs := regsKeptBut_writeAlu r _ n
  pc := by simp [decAcc]
  memory := memKept_of_mem (by simp [decAcc])
  halted := by simp [decAcc]

/-! ## Control -/

/-- All that a branch does (R240). -/
theorem branchIf_spec (taken : Bool) (off8 : Byte) (s : State) :
    OnlyPcMoves (if taken then branchTarget (s.pc + 2) off8 else s.pc + 2) s
      (branchIf taken off8 (s.advance 2)) where
  pc := by simp
  flags := flagsKeptBut_of_cc (by simp) _
  regs := regsKeptBut_nil (by simp) (by simp) (by simp) (by simp) (by simp) (by simp) (by simp)
  memory := memKept_of_mem (by simp)
  halted := by simp

/-- All that the advance of the PC does (R49). -/
theorem advance_spec (n : Nat) (s : State) : OnlyPcMoves (s.pc + BitVec.ofNat 16 n) s (s.advance n) where
  pc := by simp
  flags := flagsKeptBut_of_cc (by simp) _
  regs := regsKeptBut_nil (by simp) (by simp) (by simp) (by simp) (by simp) (by simp) (by simp)
  memory := memKept_of_mem (by simp)
  halted := by simp

/-- All that a halt after the opcode fetch does (R262, R263). -/
theorem halt_spec (s : State) : HaltsPastOneByte s (halt (s.advance 1)) where
  halted := by simp
  pc := by simp
  flags := flagsKeptBut_of_cc (by simp) _
  regs := regsKeptBut_nil (by simp) (by simp) (by simp) (by simp) (by simp) (by simp) (by simp)
  memory := memKept_of_mem (by simp)

/-! ## Resets -/

/-- `PowerOn` brings every state to the reset state (R312). -/
theorem powerOn_eq_reset (s : State) : powerOn s = State.reset := by
  simp only [powerOn, procReset, State.memRead16, memReset_mem, resetVector_of_intact romIntact_afterReset]
  rfl

end Sys2Proof.Machine
end

