-- ==== Sys2Proof/Laws/PerInstr.lean ====
section
/-! SUPPORT. Statements for all instructions, one lemma per constructor of `Instr`. -/

/-- An instruction is built again by its form from its own operand bytes: no bit of an operand is lost. -/
def Sys2Proof.Laws.Rebuild.Statement (i : Sys2Proof.Instr) : Prop :=
  i.form.build (i.operand.bytes.getD 0 0) (i.operand.bytes.getD 1 0) = i

namespace Sys2Proof.Laws.Rebuild

theorem endSentinel : Statement .endSentinel := rfl

theorem nop : Statement .nop := rfl

theorem bra (off8 : Byte) : Statement (.bra off8) := rfl

theorem bne (off8 : Byte) : Statement (.bne off8) := rfl

theorem beq (off8 : Byte) : Statement (.beq off8) := rfl

theorem deca : Statement .deca := rfl

theorem inca : Statement .inca := rfl

theorem decb : Statement .decb := rfl

theorem incb : Statement .incb := rfl

theorem subaImm (imm8 : Byte) : Statement (.subaImm imm8) := rfl

theorem ldaImm (imm8 : Byte) : Statement (.ldaImm imm8) := rfl

theorem addaImm (imm8 : Byte) : Statement (.addaImm imm8) := rfl

theorem ldxImm (imm8 : Byte) : Statement (.ldxImm imm8) := rfl

theorem subaDir (addr8 : Byte) : Statement (.subaDir addr8) := rfl

theorem ldaDir (addr8 : Byte) : Statement (.ldaDir addr8) := rfl

theorem staDir (addr8 : Byte) : Statement (.staDir addr8) := rfl

theorem addaDir (addr8 : Byte) : Statement (.addaDir addr8) := rfl

theorem ldxDir (addr8 : Byte) : Statement (.ldxDir addr8) := rfl

theorem stxDir (addr8 : Byte) : Statement (.stxDir addr8) := rfl

theorem subaExt (addr16 : Word) : Statement (.subaExt addr16) :=
  congrArg Instr.subaExt (Machine.joinBytes_hiByte_loByte addr16)

theorem ldaExt (addr16 : Word) : Statement (.ldaExt addr16) :=
  congrArg Instr.ldaExt (Machine.joinBytes_hiByte_loByte addr16)

theorem staExt (addr16 : Word) : Statement (.staExt addr16) :=
  congrArg Instr.staExt (Machine.joinBytes_hiByte_loByte addr16)

theorem addaExt (addr16 : Word) : Statement (.addaExt addr16) :=
  congrArg Instr.addaExt (Machine.joinBytes_hiByte_loByte addr16)

theorem ldxExt (addr16 : Word) : Statement (.ldxExt addr16) :=
  congrArg Instr.ldxExt (Machine.joinBytes_hiByte_loByte addr16)

theorem stxExt (addr16 : Word) : Statement (.stxExt addr16) :=
  congrArg Instr.stxExt (Machine.joinBytes_hiByte_loByte addr16)

theorem subbImm (imm8 : Byte) : Statement (.subbImm imm8) := rfl

theorem ldbImm (imm8 : Byte) : Statement (.ldbImm imm8) := rfl

theorem addbImm (imm8 : Byte) : Statement (.addbImm imm8) := rfl

theorem subbDir (addr8 : Byte) : Statement (.subbDir addr8) := rfl

theorem ldbDir (addr8 : Byte) : Statement (.ldbDir addr8) := rfl

theorem stbDir (addr8 : Byte) : Statement (.stbDir addr8) := rfl

theorem addbDir (addr8 : Byte) : Statement (.addbDir addr8) := rfl

theorem subbExt (addr16 : Word) : Statement (.subbExt addr16) :=
  congrArg Instr.subbExt (Machine.joinBytes_hiByte_loByte addr16)

theorem ldbExt (addr16 : Word) : Statement (.ldbExt addr16) :=
  congrArg Instr.ldbExt (Machine.joinBytes_hiByte_loByte addr16)

theorem stbExt (addr16 : Word) : Statement (.stbExt addr16) :=
  congrArg Instr.stbExt (Machine.joinBytes_hiByte_loByte addr16)

theorem addbExt (addr16 : Word) : Statement (.addbExt addr16) :=
  congrArg Instr.addbExt (Machine.joinBytes_hiByte_loByte addr16)

end Sys2Proof.Laws.Rebuild
end

