-- ==== Sys2Proof/Laws/Step.lean ====
section
/-! SUPPORT. What `exec` and `step` can do, said once: every later case split over the instructions can
cite these instead of unfolding a meaning. -/

namespace Sys2Proof.Machine

/-- Each next state of `exec`, as the shared operation that made it, from the state past the
instruction's fetch. -/
inductive Made (i : Instr) (s : State) : State → Prop
  | loadAcc (r : Acc) (m : Byte) (hnz : i.form.writesNZ = true) (hm : i.form.isBranch = false) :
      Made i s (loadAcc r m (s.advance i.size))
  | loadX (v : Word) (hnz : i.form.writesNZ = true) (hm : i.form.isBranch = false) :
      Made i s (loadX v (s.advance i.size))
  | storeAcc (r : Acc) (ea : Word) (h : i.form.isStore = true) (hm : i.form.isBranch = false) :
      Made i s (storeAcc r ea (s.advance i.size))
  | storeX (ea : Word) (h : i.form.isStore = true) (hm : i.form.isBranch = false) :
      Made i s (storeX ea (s.advance i.size))
  | addAcc (r : Acc) (m : Byte) (hc : i.form.writesCarry = true) (hnz : i.form.writesNZ = true)
      (hm : i.form.isBranch = false) : Made i s (addAcc r m (s.advance i.size))
  | subAcc (r : Acc) (m : Byte) (hc : i.form.writesCarry = true) (hnz : i.form.writesNZ = true)
      (hm : i.form.isBranch = false) : Made i s (subAcc r m (s.advance i.size))
  | incAcc (r : Acc) (hnz : i.form.writesNZ = true) (hm : i.form.isBranch = false) :
      Made i s (incAcc r (s.advance i.size))
  | decAcc (r : Acc) (hnz : i.form.writesNZ = true) (hm : i.form.isBranch = false) :
      Made i s (decAcc r (s.advance i.size))
  | branch (taken : Bool) (off8 : Byte) (h : i.form.isBranch = true) (hi : i.operand = .rel off8)
      (ht : ∀ m, i.form.mnemonic = some m → taken = branchTaken m s) :
      Made i s (branchIf taken off8 (s.advance i.size))
  | nop (h : i = .nop) : Made i s (s.advance i.size)
  | endSentinel (h : i = .endSentinel) : Made i s (halt (s.advance i.size))

/-- Every instruction answers a next state, made by one shared operation. -/
theorem exec_made (i : Instr) (s : State) : ∃ t, exec i s = .next t ∧ Made i s t := by
  cases i
  case endSentinel => exact ⟨_, rfl, .endSentinel rfl⟩
  case nop => exact ⟨_, rfl, .nop rfl⟩
  case bra off8 => exact ⟨_, rfl, .branch true off8 rfl rfl fun m h => by cases h; rfl⟩
  case bne off8 => exact ⟨_, rfl, .branch _ off8 rfl rfl fun m h => by cases h; rfl⟩
  case beq off8 => exact ⟨_, rfl, .branch _ off8 rfl rfl fun m h => by cases h; rfl⟩
  case deca => exact ⟨_, rfl, .decAcc .a rfl rfl⟩
  case decb => exact ⟨_, rfl, .decAcc .b rfl rfl⟩
  case inca => exact ⟨_, rfl, .incAcc .a rfl rfl⟩
  case incb => exact ⟨_, rfl, .incAcc .b rfl rfl⟩
  all_goals
    first
      | exact ⟨_, rfl, .loadAcc .a _ rfl rfl⟩
      | exact ⟨_, rfl, .loadAcc .b _ rfl rfl⟩
      | exact ⟨_, rfl, .loadX _ rfl rfl⟩
      | exact ⟨_, rfl, .storeAcc .a _ rfl rfl⟩
      | exact ⟨_, rfl, .storeAcc .b _ rfl rfl⟩
      | exact ⟨_, rfl, .storeX _ rfl rfl⟩
      | exact ⟨_, rfl, .addAcc .a _ rfl rfl rfl⟩
      | exact ⟨_, rfl, .addAcc .b _ rfl rfl rfl⟩
      | exact ⟨_, rfl, .subAcc .a _ rfl rfl rfl⟩
      | exact ⟨_, rfl, .subAcc .b _ rfl rfl rfl⟩

/-- Inversion of `exec`. -/
theorem made_of_exec {i : Instr} {s t : State} (h : exec i s = .next t) : Made i s t := by
  obtain ⟨t', h', hm⟩ := exec_made i s
  rw [h'] at h
  cases h
  exact hm

/-- The machine's step is the engine's under the default map. -/
theorem step_eq (s : State) : step s = stepWith defaultEncoding s := rfl

/-- Inversion of `stepWith`: HALTED and unchanged, an instruction, or the fail-stop (R285). -/
theorem stepWith_cases {c : EncodingParams} {s t : State} (h : stepWith c s = .next t) :
    (s.halted = true ∧ t = s) ∨
    (s.halted = false ∧ ∃ i, fetchDecode c s = .ok i ∧ exec i s = .next t) ∨
    (s.halted = false ∧ ∃ op, fetchDecode c s = .error (.invalidOpcode op) ∧ t = halt (s.advance 1)) := by
  unfold stepWith at h
  split_ifs at h with hh
  · cases h; exact .inl ⟨hh, rfl⟩
  · have hh' : s.halted = false := by simpa using hh
    split at h
    · rename_i i hi; exact .inr (.inl ⟨hh', i, hi, h⟩)
    · rename_i op ho; cases h; exact .inr (.inr ⟨hh', op, ho, rfl⟩)

/-- The bytes a fetch decodes: the three from PC on. -/
theorem fetchDecode_eq (c : EncodingParams) (s : State) :
    fetchDecode c s = decodeWith c (s.memRead s.pc) (s.memRead (s.pc + 1)) (s.memRead (s.pc + 2)) := by
  have e : s.pc + 1 + 1 = s.pc + 2 := by bv_omega
  simp only [fetchDecode, fetchByte, State.memRead, advance_mem, advance_pc]
  rw [← e]
  rfl

end Sys2Proof.Machine
end

