-- ==== Sys2Proof/Tests/Slice0.lean ====
section
/-! SUPPORT. Tests. Expected values come from spec/: the words of spec/opcode_table.json, the vectors of
95_test_vectors.md (named V-… there) and the rules named; none is the model's own answer. -/

open Sys2Proof Sys2Proof.Machine

namespace Sys2Proof.Tests

/-! ## Every row of the opcode table, its bytes written out from the table's encoding -/

theorem test_decode_endSentinel : decode 0x00 0xA5 0x3C = .ok .endSentinel ∧ encode .endSentinel = [0x00] := by decide
theorem test_decode_nop : decode 0x12 0xA5 0x3C = .ok .nop ∧ encode .nop = [0x12] := by decide
theorem test_decode_bra : decode 0x20 0xA5 0x3C = .ok (.bra 0xA5) ∧ encode (.bra 0xA5) = [0x20, 0xA5] := by decide
theorem test_decode_bne : decode 0x26 0xA5 0x3C = .ok (.bne 0xA5) ∧ encode (.bne 0xA5) = [0x26, 0xA5] := by decide
theorem test_decode_beq : decode 0x27 0xA5 0x3C = .ok (.beq 0xA5) ∧ encode (.beq 0xA5) = [0x27, 0xA5] := by decide
theorem test_decode_deca : decode 0x4A 0xA5 0x3C = .ok .deca ∧ encode .deca = [0x4A] := by decide
theorem test_decode_inca : decode 0x4C 0xA5 0x3C = .ok .inca ∧ encode .inca = [0x4C] := by decide
theorem test_decode_decb : decode 0x5A 0xA5 0x3C = .ok .decb ∧ encode .decb = [0x5A] := by decide
theorem test_decode_incb : decode 0x5C 0xA5 0x3C = .ok .incb ∧ encode .incb = [0x5C] := by decide
theorem test_decode_subaImm : decode 0x80 0xA5 0x3C = .ok (.subaImm 0xA5) ∧ encode (.subaImm 0xA5) = [0x80, 0xA5] := by decide
theorem test_decode_ldaImm : decode 0x86 0xA5 0x3C = .ok (.ldaImm 0xA5) ∧ encode (.ldaImm 0xA5) = [0x86, 0xA5] := by decide
theorem test_decode_addaImm : decode 0x8B 0xA5 0x3C = .ok (.addaImm 0xA5) ∧ encode (.addaImm 0xA5) = [0x8B, 0xA5] := by decide
theorem test_decode_ldxImm : decode 0x8E 0xA5 0x3C = .ok (.ldxImm 0xA5) ∧ encode (.ldxImm 0xA5) = [0x8E, 0xA5] := by decide
theorem test_decode_subaDir : decode 0x90 0xA5 0x3C = .ok (.subaDir 0xA5) ∧ encode (.subaDir 0xA5) = [0x90, 0xA5] := by decide
theorem test_decode_ldaDir : decode 0x96 0xA5 0x3C = .ok (.ldaDir 0xA5) ∧ encode (.ldaDir 0xA5) = [0x96, 0xA5] := by decide
theorem test_decode_staDir : decode 0x97 0xA5 0x3C = .ok (.staDir 0xA5) ∧ encode (.staDir 0xA5) = [0x97, 0xA5] := by decide
theorem test_decode_addaDir : decode 0x9B 0xA5 0x3C = .ok (.addaDir 0xA5) ∧ encode (.addaDir 0xA5) = [0x9B, 0xA5] := by decide
theorem test_decode_ldxDir : decode 0x9E 0xA5 0x3C = .ok (.ldxDir 0xA5) ∧ encode (.ldxDir 0xA5) = [0x9E, 0xA5] := by decide
theorem test_decode_stxDir : decode 0x9F 0xA5 0x3C = .ok (.stxDir 0xA5) ∧ encode (.stxDir 0xA5) = [0x9F, 0xA5] := by decide
theorem test_decode_subaExt : decode 0xB0 0xA5 0x3C = .ok (.subaExt 0xA53C) ∧ encode (.subaExt 0xA53C) = [0xB0, 0xA5, 0x3C] := by decide
theorem test_decode_ldaExt : decode 0xB6 0xA5 0x3C = .ok (.ldaExt 0xA53C) ∧ encode (.ldaExt 0xA53C) = [0xB6, 0xA5, 0x3C] := by decide
theorem test_decode_staExt : decode 0xB7 0xA5 0x3C = .ok (.staExt 0xA53C) ∧ encode (.staExt 0xA53C) = [0xB7, 0xA5, 0x3C] := by decide
theorem test_decode_addaExt : decode 0xBB 0xA5 0x3C = .ok (.addaExt 0xA53C) ∧ encode (.addaExt 0xA53C) = [0xBB, 0xA5, 0x3C] := by decide
theorem test_decode_ldxExt : decode 0xBE 0xA5 0x3C = .ok (.ldxExt 0xA53C) ∧ encode (.ldxExt 0xA53C) = [0xBE, 0xA5, 0x3C] := by decide
theorem test_decode_stxExt : decode 0xBF 0xA5 0x3C = .ok (.stxExt 0xA53C) ∧ encode (.stxExt 0xA53C) = [0xBF, 0xA5, 0x3C] := by decide
theorem test_decode_subbImm : decode 0xC0 0xA5 0x3C = .ok (.subbImm 0xA5) ∧ encode (.subbImm 0xA5) = [0xC0, 0xA5] := by decide
theorem test_decode_ldbImm : decode 0xC6 0xA5 0x3C = .ok (.ldbImm 0xA5) ∧ encode (.ldbImm 0xA5) = [0xC6, 0xA5] := by decide
theorem test_decode_addbImm : decode 0xCB 0xA5 0x3C = .ok (.addbImm 0xA5) ∧ encode (.addbImm 0xA5) = [0xCB, 0xA5] := by decide
theorem test_decode_subbDir : decode 0xD0 0xA5 0x3C = .ok (.subbDir 0xA5) ∧ encode (.subbDir 0xA5) = [0xD0, 0xA5] := by decide
theorem test_decode_ldbDir : decode 0xD6 0xA5 0x3C = .ok (.ldbDir 0xA5) ∧ encode (.ldbDir 0xA5) = [0xD6, 0xA5] := by decide
theorem test_decode_stbDir : decode 0xD7 0xA5 0x3C = .ok (.stbDir 0xA5) ∧ encode (.stbDir 0xA5) = [0xD7, 0xA5] := by decide
theorem test_decode_addbDir : decode 0xDB 0xA5 0x3C = .ok (.addbDir 0xA5) ∧ encode (.addbDir 0xA5) = [0xDB, 0xA5] := by decide
theorem test_decode_subbExt : decode 0xF0 0xA5 0x3C = .ok (.subbExt 0xA53C) ∧ encode (.subbExt 0xA53C) = [0xF0, 0xA5, 0x3C] := by decide
theorem test_decode_ldbExt : decode 0xF6 0xA5 0x3C = .ok (.ldbExt 0xA53C) ∧ encode (.ldbExt 0xA53C) = [0xF6, 0xA5, 0x3C] := by decide
theorem test_decode_stbExt : decode 0xF7 0xA5 0x3C = .ok (.stbExt 0xA53C) ∧ encode (.stbExt 0xA53C) = [0xF7, 0xA5, 0x3C] := by decide
theorem test_decode_addbExt : decode 0xFB 0xA5 0x3C = .ok (.addbExt 0xA53C) ∧ encode (.addbExt 0xA53C) = [0xFB, 0xA5, 0x3C] := by decide

/-- The table's numbering: the opcode is bits 7 to 0, the next byte bits 15 to 8, the last bits 23 to 16. -/
theorem test_decodeTableWord : decodeTableWord 24 0x3412B6 = some (.ldaExt 0x1234) ∧
    decodeTableWord 8 0xB6 = some (.ldaExt 0x0000) ∧ decodeTableWord 8 0x01 = none := by decide

/-! ## The checks of WellFormed.lean refuse an ill-formed term -/

theorem test_wellFormed_instr : (Instr.ldaImm 0xFF).wellFormed = true := by decide
theorem test_legal_refuses_two_equal_bytes :
    (EncodingParams.legal ⟨fun f => if f = .nop then 0x00 else defaultOpc f, 0x12⟩) = false := by decide
theorem test_asm_refuses_hash_comment : (AsmParams.legal ⟨'#', '$'⟩) = false := by decide
theorem test_asm_refuses_other_hex_marker : (AsmParams.legal ⟨';', '%'⟩) = false := by decide
theorem test_params_legal : defaultParams.legal = true ∧ (Params.legal ⟨defaultEncoding, ⟨'$', '$'⟩⟩) = false := by
  decide
theorem test_record_refuses_bad_name : (Record.wellFormed ⟨['1', 'A'], .direct, 0⟩) = false := by decide
theorem test_record_refuses_wide_operand :
    (Record.wellFormed ⟨['L', 'D', 'A'], .extended, 0x10000⟩) = false := by decide
theorem test_record_refuses_inherent_operand :
    (Record.wellFormed ⟨['N', 'O', 'P'], .inherent, 1⟩) = false := by decide

/-- A program of n times one record. -/
theorem size_replicate (n : Nat) (r : Record) : Program.size (List.replicate n r) = n * r.size := by
  simp only [Program.size, List.map_replicate, List.sum_replicate, smul_eq_mul]

theorem test_program_refuses_too_long :
    Program.fits (List.replicate 0x2AAB ⟨['L', 'D', 'A'], .extended, 0x100⟩) = false := by
  rw [Program.fits, size_replicate]
  decide

/-! ## One step -/

/-- The reset state with bytes placed in memory. -/
def ram (cells : List (Nat × Byte)) : State :=
  { State.reset with mem := cells.foldl (fun m c => m.poke c.1 c.2) Memory.afterReset }

/-- The reset state with bytes at 0x0000. -/
def code (bytes : List Byte) : State := ram (bytes.zipIdx.map fun p => (p.2, p.1))

/-- What one step leaves, through a view of it. -/
def after {α : Type} (s : State) (view : State → α) : Option α :=
  match step s with
  | .next t => some (view t)
  | _ => none

/-- V-LD-3: C survives a load. -/
theorem test_ldaImm :
    after { code [0x86, 0x80] with cc := 0x11 } (fun t => (t.a, t.cc, t.pc)) = some (0x80, 0x19, 2) := by decide
/-- V-LD-4 -/
theorem test_ldaDir :
    after (ram [(0x0000, 0x96), (0x0001, 0x20), (0x0020, 0x9C)]) (fun t => (t.a, t.cc, t.pc)) = some (0x9C, 0x18, 2) := by decide
/-- V-LD-6 -/
theorem test_ldaExt :
    after { code [0xB6, 0xFF, 0xFE] with cc := 0x19 } (fun t => (t.a, t.cc, t.pc)) = some (0x00, 0x15, 3) := by decide
/-- V-LD-15 -/
theorem test_ldbImm :
    after (code [0xC6, 0xFF]) (fun t => (t.b, t.a, t.cc, t.pc)) = some (0xFF, 0x00, 0x18, 2) := by decide
/-- V-LD-16 -/
theorem test_ldbDir :
    after (code [0xD6, 0x00]) (fun t => (t.b, t.cc, t.pc)) = some (0xD6, 0x18, 2) := by decide
/-- V-LD-17 -/
theorem test_ldbExt :
    after (ram [(0x0000, 0xF6), (0x0001, 0x12), (0x0002, 0x34), (0x1234, 0x7F)]) (fun t => (t.b, t.cc, t.pc)) = some (0x7F, 0x10, 3) := by decide
/-- V-LD-8: N tests bit 15. -/
theorem test_ldxImm :
    after (code [0x8E, 0xFF]) (fun t => (t.x, t.cc, t.pc)) = some (0x00FF, 0x10, 2) := by decide
/-- V-LD-11 -/
theorem test_ldxDir :
    after (ram [(0x0000, 0x9E), (0x0001, 0xFF), (0x00FF, 0xAB), (0x0100, 0xCD)]) (fun t => (t.x, t.cc, t.pc)) = some (0xABCD, 0x18, 2) := by decide
/-- V-LD-12: the second byte wraps to 0x0000. -/
theorem test_ldxExt :
    after (code [0xBE, 0xFF, 0xFF]) (fun t => (t.x, t.cc, t.pc)) = some (0x00BE, 0x10, 3) := by decide
/-- V-ST-1 -/
theorem test_staDir :
    after { code [0x97, 0x20] with a := 0x08, cc := 0x1D } (fun t => (t.memRead 0x20, t.cc, t.pc)) = some (0x08, 0x1D, 2) := by decide
/-- V-ST-3: the reset vector is unchanged. -/
theorem test_staExt :
    after { code [0xB7, 0xFF, 0xFE] with a := 0x12 } (fun t => (t.memRead 0xFFFE, t.memRead 0xFFFF, t.pc)) = some (0, 0, 3) := by decide
/-- V-ST-4 -/
theorem test_stbDir :
    after { code [0xD7, 0x01] with b := 0x4C } (fun t => (t.memRead 0, t.memRead 1, t.pc)) = some (0xD7, 0x4C, 2) := by decide
/-- V-ST-5 -/
theorem test_stbExt :
    after { code [0xF7, 0x7F, 0xFF] with b := 0x7E } (fun t => (t.memRead 0x7FFF, t.memRead 0x8000, t.pc)) = some (0x7E, 0xFF, 3) := by decide
/-- V-ST-7 -/
theorem test_stxDir :
    after { code [0x9F, 0xFF] with x := 0xA1B2 } (fun t => (t.memRead 0xFF, t.memRead 0x100, t.pc)) = some (0xA1, 0xB2, 2) := by decide
/-- V-ST-9 -/
theorem test_stxExt :
    after { code [0xBF, 0xFF, 0xFF] with x := 0xA1B2 } (fun t => (t.memRead 0xFFFF, t.memRead 0, t.pc)) = some (0x00, 0xB2, 3) := by decide
/-- V-ST-8 -/
theorem test_stxExt_straddle :
    after { code [0xBF, 0x7F, 0xFF] with x := 0xA1B2 } (fun t => (t.memRead 0x7FFF, t.memRead 0x8000, t.pc)) = some (0xA1, 0xFF, 3) := by decide
/-- V-AR-26: only N, Z, C are rewritten. -/
theorem test_addaImm :
    after { code [0x8B, 0x01] with a := 0x01, cc := 0xFF } (fun t => (t.a, t.cc, t.pc)) = some (0x02, 0xF2, 2) := by decide
/-- V-AR-27 -/
theorem test_addaDir :
    after { code [0x9B, 0x00] with a := 0x01 } (fun t => (t.a, t.cc, t.pc)) = some (0x9C, 0x18, 2) := by decide
/-- V-AR-7 -/
theorem test_addaExt :
    after { code [0xBB, 0x80, 0x00] with a := 0x01 } (fun t => (t.a, t.cc, t.pc)) = some (0x00, 0x15, 3) := by decide
/-- V-AR-8 -/
theorem test_addbImm :
    after { code [0xCB, 0x80] with b := 0x80 } (fun t => (t.b, t.cc, t.pc)) = some (0, 0x15, 2) := by decide
/-- V-AR-9 -/
theorem test_addbDir :
    after { ram [(0x0000, 0xDB), (0x0001, 0x21), (0x0021, 0x02)] with b := 0x01 } (fun t => (t.b, t.cc, t.pc)) = some (3, 0x10, 2) := by decide
/-- V-AR-10 -/
theorem test_addbExt :
    after { code [0xFB, 0xFF, 0xFD] with b := 0xFF } (fun t => (t.b, t.cc, t.pc)) = some (0xFE, 0x19, 3) := by decide
/-- V-AR-14: the largest borrow. -/
theorem test_subaImm :
    after (code [0x80, 0xFF]) (fun t => (t.a, t.cc, t.pc)) = some (0x01, 0x11, 2) := by decide
/-- V-AR-12 -/
theorem test_subaImm_equal :
    after { code [0x80, 0x05] with a := 0x05, cc := 0x19 } (fun t => (t.a, t.cc, t.pc)) = some (0x00, 0x14, 2) := by decide
/-- V-AR-15 -/
theorem test_subaDir :
    after { ram [(0x0000, 0x90), (0x0001, 0x30), (0x0030, 0x10)] with a := 0x10 } (fun t => (t.a, t.cc, t.pc)) = some (0x00, 0x14, 2) := by decide
/-- V-AR-16 -/
theorem test_subaExt :
    after { ram [(0x0000, 0xB0), (0x0001, 0x03), (0x0002, 0x00), (0x0300, 0x01)] with a := 0x80 } (fun t => (t.a, t.cc, t.pc)) = some (0x7F, 0x10, 3) := by decide
/-- V-AR-17 -/
theorem test_subbImm :
    after { code [0xC0, 0x05] with b := 0x03 } (fun t => (t.b, t.cc, t.pc)) = some (0xFE, 0x19, 2) := by decide
/-- V-AR-18 -/
theorem test_subbDir :
    after { ram [(0x0000, 0xD0), (0x0001, 0x22), (0x0022, 0x80)] with b := 0x7F } (fun t => (t.b, t.cc, t.pc)) = some (0xFF, 0x19, 2) := by decide
/-- V-AR-19 -/
theorem test_subbExt :
    after { code [0xF0, 0x80, 0x00] with b := 0xFF } (fun t => (t.b, t.cc, t.pc)) = some (0, 0x14, 3) := by decide
/-- V-AR-20: C kept, not produced. -/
theorem test_inca :
    after { code [0x4C] with a := 0xFF, cc := 0x11 } (fun t => (t.a, t.cc, t.pc)) = some (0, 0x15, 1) := by decide
/-- V-AR-22 -/
theorem test_incb :
    after { code [0x5C] with cc := 0x14 } (fun t => (t.b, t.cc, t.pc)) = some (1, 0x10, 1) := by decide
/-- V-AR-23: no borrow reported. -/
theorem test_deca :
    after (code [0x4A]) (fun t => (t.a, t.cc, t.pc)) = some (0xFF, 0x18, 1) := by decide
/-- V-AR-24 -/
theorem test_decb :
    after { code [0x5A] with b := 0x01, cc := 0x11 } (fun t => (t.b, t.cc, t.pc)) = some (0, 0x15, 1) := by decide
/-- V-BR-3: wraps below zero. -/
theorem test_bra :
    after (code [0x20, 0xFC]) (fun t => (t.pc, t.cc)) = some (0xFFFE, 0x10) := by decide
/-- V-BR-11: Z alone counts; the offset byte is consumed. -/
theorem test_beq_not_taken :
    after { code [0x27, 0x10] with cc := 0x1B } (fun t => (t.pc, t.cc)) = some (2, 0x1B) := by decide
/-- V-BR-6 -/
theorem test_beq :
    after { ram [(0x0A, 0x27), (0x0B, 0x01)] with pc := 0x0A, cc := 0x14 } (fun t => t.pc) = some 0x000D := by decide
/-- V-BR-8 -/
theorem test_bne :
    after { ram [(0x07, 0x26), (0x08, 0xFB)] with pc := 7 } (fun t => t.pc) = some 0x0004 := by decide
/-- V-BR-9 -/
theorem test_bne_not_taken :
    after { ram [(0x07, 0x26), (0x08, 0xFB)] with pc := 7, cc := 0x14 } (fun t => t.pc) = some 0x0009 := by decide
/-- V-CT-1 -/
theorem test_nop :
    after { ram [(5, 0x12)] with pc := 5 } (fun t => (t.pc, t.cc, t.halted)) = some (6, 0x10, false) := by decide
/-- V-CT-2 -/
theorem test_endSentinel :
    after State.reset (fun t => (t.pc, t.halted)) = some (1, true) := by decide
/-- V-CT-11: PC wraps. -/
theorem test_endSentinel_wrap :
    after { State.reset with pc := 0xFFFF } (fun t => (t.pc, t.halted)) = some (0, true) := by decide
/-- V-CT-3 -/
theorem test_invalid :
    after { code [0xFF] with a := 0x33, cc := 0x1D } (fun t => (t.halted, t.pc, t.a, t.cc)) = some (true, 1, 0x33, 0x1D) := by decide
/-- V-CT-8: no operand byte is consumed. -/
theorem test_invalid_trace :
    stepTrace defaultEncoding (code [0x81, 0x00]) = .invalid 0x81 ∧
      after (code [0x81, 0x00]) (fun t => t.pc) = some 1 := by decide
/-- V-CT-12 -/
theorem test_fetch_from_rom :
    after { ram [(0x7FFF, 0x86)] with pc := 0x7FFF } (fun t => (t.a, t.cc, t.pc)) = some (0xFF, 0x18, 0x8001) := by decide
/-- V-CT-13 -/
theorem test_fetch_straddles :
    after { ram [(0x7FFE, 0xB6)] with pc := 0x7FFE } (fun t => (t.a, t.cc, t.pc)) =
      some (0x00, 0x14, 0x8001) := by decide
/-- R265 -/
theorem test_trace_store :
    stepTrace defaultEncoding (code [0x97, 0x20]) = .executed .STA .direct (.address 0x0020) := by decide
/-- V-RS-1 -/
theorem test_procReset :
    procReset { State.reset with a := 0x12, b := 0x34, dp := 0x56, x := 0x789A, y := 1, s := 2, u := 3,
                                  cc := 0xEF, pc := 0x4321, halted := true } = State.reset := by decide
/-- V-RS-4 -/
theorem test_memReset :
    (memReset { code [0x86, 0x05] with a := 0x12, pc := 6, halted := true }) =
      { State.reset with a := 0x12, pc := 6, halted := true } := by decide
/-- What `withFetchWord` places is what the next step runs. -/
theorem test_withFetchWord :
    after ({ State.reset with halted := true }.withFetchWord 16 0x0586) (fun t => (t.a, t.pc)) = some (5, 2) := by decide

/-! ## Loader and assembler -/

/-- A source text. -/
def src (t : String) : List Char := t.toList

/-- The bytes a text assembles to, if it does. -/
def bytesOf (t : String) : Option (List Byte) :=
  match assemble (src t) with
  | .ok p => some (p.flatMap (recordBytesWith defaultEncoding))
  | .error _ => none

/-- How a text fails, if it does. -/
def failureOf (t : String) : Option AsmError :=
  match assemble (src t) with
  | .ok _ => none
  | .error e => some e

/-- V-ASM-2 -/
theorem test_asm_case_and_space :
    bytesOf "  lda   #$05  \n end " = some [0x86, 0x05] := by decide
/-- V-ASM-3 -/
theorem test_asm_comments :
    bytesOf "; header\n\nLDA #5 ; five\nEND" = some [0x86, 0x05] := by decide
/-- V-ASM-5, V-ASM-6 -/
theorem test_asm_mode_by_value :
    bytesOf "STA 255\nSTA 256\nSTA $0020\nEND" = some [0x97, 0xFF, 0xB7, 0x01, 0x00, 0x97, 0x20] := by decide
/-- V-ASM-8, V-ASM-9 -/
theorem test_asm_low_byte :
    bytesOf "LDX #$1234\nLDA #300\nEND" = some [0x8E, 0x34, 0x86, 0x2C] := by decide
/-- V-ASM-10, V-ASM-12 -/
theorem test_asm_inherent :
    bytesOf "INCA\nDECB\nNOP\nEND\nthis is !! not parsed" = some [0x4C, 0x5A, 0x12] := by decide
/-- V-ASM-14, V-ASM-15 -/
theorem test_asm_missing_end :
    failureOf "LDA #$05\nADDA #$03" = some .missingEnd ∧ failureOf "" = some .missingEnd := by decide
/-- V-ASM-16 -/
theorem test_asm_bare :
    failureOf "NOP\nLDA\nEND" = some (.syntaxError 2 ['L', 'D', 'A']) := by decide
/-- V-ASM-18 to V-ASM-22 -/
theorem test_asm_literals :
    failureOf "LDA #\nEND" ≠ none ∧ failureOf "LDA #-1\nEND" ≠ none ∧ failureOf "LDA $10000\nEND" ≠ none ∧
      failureOf "LDA #$G1\nEND" ≠ none ∧ failureOf "LDA #5 6\nEND" ≠ none := by decide
/-- V-ASM-26 -/
theorem test_asm_end_with_comment :
    bytesOf "END ; done" = some [] := by decide
/-- V-LDR-4 -/
theorem test_load_keeps_old_bytes :
    (match loadProgram [⟨['N', 'O', 'P'], .inherent, 0⟩] (code [0x86, 0x05]) with
      | .ok t => some (t.memRead 0, t.memRead 1)
      | .error _ => none) = some (0x12, 0x05) := by decide
/-- V-ENC-7, V-ENC-8 -/
theorem test_lut :
    opcodeOf defaultEncoding ['B', 'N', 'E'] .direct = 0x26 ∧ lutForm ['S', 'T', 'A'] .immediate = none ∧
      lutForm ['B', 'R', 'A'] .extended = none ∧ lutForm ['N', 'O', 'P'] .direct = none := by decide

/-! ## Witnesses: for each statement with hypotheses, a state and operands that meet them all -/

/-- Flags other than those written (UpdateNZAssignsOnlyZeroAndNegative, Add8…, Sub8…, IncrementAnd…). -/
theorem witness_other_flag : ∃ g : Flag, g ≠ .z ∧ g ≠ .n ∧ g ≠ .c := ⟨.v, by decide⟩

/-- FetchReadsAtPcAndAdvancesIt: PC at the wrap. -/
theorem witness_pc_wraps : { State.reset with pc := 0xFFFF }.pc = 0xFFFF := rfl

/-- ReadAfterWrite, SixteenBitWrite…, StaAndStb…, Stx…, Load…: a canonical memory that lists cells, the
last RAM byte among them. -/
theorem witness_wf : (ram [(0x7FFF, 0x12), (0x0000, 0x34)]).mem.wf = true ∧
    (ram [(0x7FFF, 0x12), (0x0000, 0x34)]).mem.length = 2 ∧ (0x7FFF : Word).toNat < 0x8000 ∧
    ¬ ((0x7FFF : Word) + 1).toNat < 0x8000 ∧ ((0xFFFF : Word) + 1).toNat < 0x8000 := by decide

/-- CanonicalMemoriesThatReadAlikeAreEqual: two histories of writes, one memory. -/
theorem witness_read_alike :
    ((Memory.afterReset.write 5 1).write 6 0).wf = true ∧ ((Memory.afterReset.write 5 2).write 5 1).wf = true ∧
    ∀ a : Word, ((Memory.afterReset.write 5 1).write 6 0).read a =
      ((Memory.afterReset.write 5 2).write 5 1).read a :=
  ⟨by decide, by decide, fun _ => rfl⟩

/-- RomIsImmutable, StepNeverWrites…, the step that stores to ROM. -/
theorem witness_step_store_to_rom : ∃ t, step (code [0xB7, 0x80, 0x00]) = .next t ∧
    0x8000 ≤ (0x8000 : Word).toNat := ⟨_, rfl, by decide⟩

/-- RomIsImmutable, ReachableStates…: a reachable state that is not the reset state. -/
theorem witness_reachable : Reachable defaultParams (hostPerform defaultParams .step State.reset).1 ∧
    (hostPerform defaultParams .step State.reset).1.halted = true := ⟨.perform _ .powerOn, by decide⟩

/-- OnlyStoresChangeMemory: a step of an instruction that is no store. -/
theorem witness_no_store : ∃ t i, step (code [0x86, 0x05]) = .next t ∧
    decode ((code [0x86, 0x05]).memRead 0) ((code [0x86, 0x05]).memRead 1)
      ((code [0x86, 0x05]).memRead 2) = .ok i ∧ i.form.isStore = false :=
  ⟨_, .ldaImm 0x05, rfl, by decide, by decide⟩

/-- StoreIsSeenByTheNextFetch: `STA $0003` at 0x0000 with A = 0x4C (INCA), `STX $02` with X = 0x2005
(`BRA`), which writes both bytes of the next instruction, and one that leaves an invalid opcode. -/
theorem witness_store_then_fetch : ∃ s t u : State, s.mem.wf = true ∧ s.halted = false ∧
    exec (.staExt 0x0003) s = .next t ∧
    decode (byteAfter (.staExt 0x0003) s t.pc) (byteAfter (.staExt 0x0003) s (t.pc + 1))
      (byteAfter (.staExt 0x0003) s (t.pc + 2)) = .ok .inca ∧
    exec (.stxDir 0x02) s = .next u ∧
    decode (byteAfter (.stxDir 0x02) s u.pc) (byteAfter (.stxDir 0x02) s (u.pc + 1))
      (byteAfter (.stxDir 0x02) s (u.pc + 2)) = .ok (.bra 0x05) :=
  ⟨{ code [0xB7, 0x00, 0x03] with a := 0x4C, x := 0x2005 }, _, _, by decide, rfl, rfl, by decide, rfl,
    by decide⟩

theorem witness_store_then_invalid : ∃ t, exec (.staDir 0x02) { code [0x97, 0x02] with a := 0xFF } = .next t ∧
    ∀ f, defaultOpc f ≠ byteAfter (.staDir 0x02) { code [0x97, 0x02] with a := 0xFF } t.pc := by
  refine ⟨_, rfl, fun f => ?_⟩
  cases f <;> decide

/-- DecodeOfEncodeUnderEveryLegalMap: a legal map other than the default. -/
theorem witness_legal_map : (EncodingParams.legal ⟨fun f => defaultOpc f + 1, 0x12⟩) = true := by decide

/-- EncodeOfDecodeUnderEveryMap, EngineDecodesEveryEncodedInstruction. -/
theorem witness_decodeBytes : decodeBytes [0xB6, 0x12, 0x34, 0x86] = .ok (.ldaExt 0x1234, [0x86]) ∧
    encode (.ldaExt 0x1234) ++ [] = [0xB6, 0x12, 0x34] ∧ encode .nop ++ [1, 2] = [0x12, 1, 2] := by decide

/-- DecodeUsesOnlyTheInstructionsOwnBytes: an invalid byte, a one-byte and a two-byte form. -/
theorem witness_formOf : formOf defaultEncoding 0xFF = none ∧ formOf defaultEncoding 0x12 = some .nop ∧
    Form.nop.size = 1 ∧ formOf defaultEncoding 0x20 = some .bra ∧ Form.bra.size = 2 := by decide

/-- LutGivesOpcodeOrDefault: a defined pair, and a pair that is none. -/
theorem witness_lut : (Form.staDir.mnemonic = some .STA ∧ Form.staDir.mode = .direct ∧
    Mnemonic.STA.name = ['S', 'T', 'A']) ∧
    ∀ (f : Form) (m : Mnemonic), f.mnemonic = some m → f.mode = .immediate → m.name ≠ ['S', 'T', 'A'] := by
  refine ⟨by decide, fun f m => ?_⟩
  cases f <;> cases m <;> decide

/-- StepRunsTheDecodedInstruction, PcMoves…: a RUNNING engine at a branch. -/
theorem witness_step_bra : ∃ t, (code [0x20, 0x05]).halted = false ∧
    decode ((code [0x20, 0x05]).memRead 0) ((code [0x20, 0x05]).memRead 1)
      ((code [0x20, 0x05]).memRead 2) = .ok (.bra 0x05) ∧ step (code [0x20, 0x05]) = .next t :=
  ⟨_, rfl, by decide, rfl⟩

/-- HaltedIsTerminalUntilAReset, ProcResetGives…: HALTED, an operation that is no reset, and one that is. -/
theorem witness_halted : { State.reset with halted := true }.halted = true ∧
    HostOp.step ≠ .powerOn ∧ HostOp.step ≠ .procReset ∧
    (hostPerform defaultParams .procReset { State.reset with halted := true }).1.halted = false := by decide

/-- MemResetRestores…: an operation that is no reset of memory, at the first address of ROM. -/
theorem witness_no_memReset : HostOp.procReset ≠ .memReset ∧ HostOp.procReset ≠ .powerOn ∧
    0x8000 ≤ (0x8000 : Word).toNat := by decide

/-- InvalidOpcodeIsAFailStop, EngineHalts…, TraceAgreesWithTheStep: 0xFF is no opcode. -/
theorem witness_invalid : (code [0xFF]).halted = false ∧
    ∀ f, defaultEncoding.opc f ≠ (code [0xFF]).memRead (code [0xFF]).pc := by
  refine ⟨rfl, fun f => ?_⟩
  cases f <;> decide

/-- EngineHaltsOnlyAtSentinelOrInvalidOpcode, TraceAgreesWithTheStep: the sentinel in reset RAM. -/
theorem witness_sentinel : ∃ t, State.reset.halted = false ∧ step State.reset = .next t ∧
    t.halted = true ∧ State.reset.memRead State.reset.pc = defaultEncoding.opc .endSentinel :=
  ⟨_, rfl, rfl, rfl, rfl⟩

/-- EachFlagIsWrittenOnlyByItsInstructions: a store writes neither, a load no carry. -/
theorem witness_flag_frames : ∃ t t', exec (.staDir 0x20) State.reset = .next t ∧
    (Instr.staDir 0x20).form.writesNZ = false ∧ exec (.ldaImm 0x80) State.reset = .next t' ∧
    (Instr.ldaImm 0x80).form.writesCarry = false := ⟨_, _, rfl, rfl, rfl, rfl⟩

/-- StepNeverReadsTheInertState: two states that differ in DP, S and the flags V and H. -/
theorem witness_same_but_inert : ∃ s t s' t', SameButInert s t ∧ s.dp ≠ t.dp ∧ s.cc ≠ t.cc ∧
    step s = .next s' ∧ step t = .next t' :=
  ⟨code [0x96, 0x00], { code [0x96, 0x00] with dp := 0x12, s := 7, cc := 0x32 }, _, _,
    ⟨rfl, rfl, rfl, rfl, rfl, rfl, by decide, by decide, by decide⟩, by decide, by decide, rfl, rfl⟩

/-- StepKeepsTheInvariant, EveryHostOperationKeepsTheInvariant: a state in the middle of a program. -/
theorem witness_inv : ∃ t, ({ code [0x97, 0x20] with a := 0x08 } : State).Inv ∧
    step { code [0x97, 0x20] with a := 0x08 } = .next t :=
  ⟨_, ⟨by decide, by decide, rfl, rfl, rfl, rfl, by decide, by decide, by decide, by decide, by decide⟩, rfl⟩

/-- BeqAndBneBranchOnZero needs no premise; both values of Z exist. -/
theorem witness_zero_flag : { State.reset with cc := 0x14 }.flag .z = true ∧ State.reset.flag .z = false := by
  decide

/-- ProcReset…: ROM intact while RAM is written. -/
theorem witness_romIntact : (code [0x86, 0x05]).mem.romIntact = true := by decide

/-- Load…: a program that is loaded, with a byte of it; and one that is refused. -/
theorem witness_load : ∃ t, (code [0x12]).mem.wf = true ∧
    loadProgram [⟨['S', 'T', 'A'], .extended, 0x100⟩] (code [0x12]) = .ok t ∧
    ([(⟨['S', 'T', 'A'], .extended, 0x100⟩ : Record)].flatMap (recordBytesWith defaultEncoding))[1]? =
      some 0x01 ∧
    Program.size [⟨['S', 'T', 'A'], .extended, 0x100⟩] ≤ 0x8000 := ⟨_, by decide, rfl, by decide, by decide⟩

theorem witness_load_too_long :
    0x8000 < Program.size (List.replicate 0x2AAB ⟨['L', 'D', 'A'], .extended, 0x100⟩) := by
  rw [size_replicate]
  decide

/-- LoadedProgramRunsRecordByRecord, RecordBytesAreTheInstructionsEncoding: the second record of a loaded
program, with the engine at it. -/
theorem witness_loaded_program : ∃ t u : State, State.reset.mem.wf = true ∧
    loadProgram ([⟨['N', 'O', 'P'], .inherent, 0⟩] ++ ⟨['L', 'D', 'A'], .immediate, 5⟩ :: []) State.reset =
      .ok t ∧
    recordInstr ⟨['L', 'D', 'A'], .immediate, 5⟩ = some (.ldaImm 5) ∧ u.mem = t.mem ∧ u.halted = false ∧
    u.pc = BitVec.ofNat 16 (Program.size [⟨['N', 'O', 'P'], .inherent, 0⟩]) :=
  ⟨_, { State.reset with mem := [(0, 0x12), (1, 0x86), (2, 5)], pc := 1 }, rfl, rfl, by decide, rfl, rfl, rfl⟩

/-- RunEndsOnlyHaltedAndIndependentOfFuel: a run that halts. -/
theorem witness_run : ∃ t, runFor defaultEncoding 2 (code [0x12]) = some t ∧
    (stepTimes defaultEncoding 2 (code [0x12])).halted = true := ⟨_, rfl, by decide⟩

/-- TraceAgreesWithTheStep: a branch taken. -/
theorem witness_branch_trace : ∃ t, stepTrace defaultEncoding (code [0x20, 0x05]) = .branch .BRA 0x05 0x0007 true ∧
    step (code [0x20, 0x05]) = .next t := ⟨_, by decide, rfl⟩

/-- MissingEndAlwaysFails: a text without `END` that parses, and one that does not. -/
theorem witness_no_end : (∀ l ∈ splitLines (src "NOP"), parseLine defaultAsm l ≠ .endOfSource ∧
      parseLine defaultAsm l ≠ .malformed) ∧
    (∀ l ∈ splitLines (src "LDA"), parseLine defaultAsm l ≠ .endOfSource) ∧
    ∃ l ∈ splitLines (src "LDA"), parseLine defaultAsm l = .malformed := by decide

/-- LinesAfterEndAreNotRead. -/
theorem witness_end_line : parseLine defaultAsm (src " End ; x") = .endOfSource := by decide

/-- SyntaxErrorNamesTheFirstBadLine, AssembledRecordsFollowTheModeRule. -/
theorem witness_assemble : assemble (src "NOP\nLDA\nEND") = .error (.syntaxError 2 ['L', 'D', 'A']) ∧
    assemble (src "LDA 255\nEND") = .ok [⟨['L', 'D', 'A'], .direct, 255⟩] := by decide

/-- EveryOpcodeMapDrivesTheEngine, and every statement over maps: a legal map other than the default under
which another byte is `NOP`, and a state where that byte stands. -/
theorem witness_other_map : (EncodingParams.legal ⟨fun f => defaultOpc f + 1, 0x12⟩) = true ∧
    (code [0x13]).halted = false ∧ defaultOpc .nop + 1 = (code [0x13]).memRead (code [0x13]).pc ∧
    decode 0x13 0 0 = .error (.invalidOpcode 0x13) ∧
    stepWith ⟨fun f => defaultOpc f + 1, 0x12⟩ (code [0x13]) = .next { code [0x13] with pc := 1 } :=
  ⟨by decide, by decide, by decide, by decide, rfl⟩

end Sys2Proof.Tests
end

section
/-! The flag updates `UpdateNZ8` and `UpdateNZ16` (R43, R44), read off their laws `flagOf_updateNZ8` and
`flagOf_updateNZ16`, which give every flag of the new CC at once. -/

namespace Sys2Proof.Machine

/-- Settles O2: each clause is one branch of the law for all flags (Z, N, or neither). -/
theorem updateNZAssignsOnlyZeroAndNegative : Obligations.UpdateNZAssignsOnlyZeroAndNegative := by
  constructor
  · intro v cc
    refine ⟨?zero, ?negative, fun g hz hn => ?others⟩
    case zero => simp [flagOf_updateNZ8]
    case negative => simp [flagOf_updateNZ8]
    case others => rw [flagOf_updateNZ8, if_neg hn, if_neg hz]
  · intro v cc
    refine ⟨?zero, ?negative, fun g hz hn => ?others⟩
    case zero => simp [flagOf_updateNZ16]
    case negative => simp [flagOf_updateNZ16]
    case others => rw [flagOf_updateNZ16, if_neg hn, if_neg hz]

end Sys2Proof.Machine
end

section
/-! Memory and its writers (20_memory.md R74, R86, R93 to R97). Whatever the engine and the loader do to
memory is a sequence of byte writes through the address decoder, and each of those discards its byte in
ROM (R77). `hostPerform_mem` says so once for every operation of the host; what is claimed of ROM follows. -/

namespace Sys2Proof.Machine

/-- The second memory comes from the first by byte writes through the address decoder, any number of them. -/
def ByWrites : Memory → Memory → Prop :=
  Relation.ReflTransGen fun m m' => ∃ (a : Word) (v : Byte), m' = m.write a v

namespace ByWrites

theorem refl (m : Memory) : ByWrites m m := Relation.ReflTransGen.refl

theorem trans {m₁ m₂ m₃ : Memory} (h : ByWrites m₁ m₂) (h' : ByWrites m₂ m₃) : ByWrites m₁ m₃ :=
  Relation.ReflTransGen.trans h h'

theorem write (m : Memory) (a : Word) (v : Byte) : ByWrites m (m.write a v) :=
  Relation.ReflTransGen.single ⟨a, v, rfl⟩

theorem write16 (m : Memory) (a v : Word) : ByWrites m (m.write16 a v) :=
  (write m a (hiByte v)).trans (write _ (a + 1) (loByte v))

theorem of_eq {m m' : Memory} (h : m' = m) : ByWrites m m' := h ▸ refl m

/-- Writes never change what ROM reads (R74). -/
theorem read_rom {m m' : Memory} (h : ByWrites m m') {a : Word} (ha : 0x8000 ≤ a.toNat) :
    m'.read a = m.read a := by
  induction h with
  | refl => rfl
  | tail _ hw ih =>
    obtain ⟨b, v, rfl⟩ := hw
    rw [← ih]
    by_cases hb : a = b
    · rw [← hb, write_rom _ ha]
    · exact read_write_ne _ v hb

/-- Writes leave ROM intact (R74). -/
theorem romIntact {m m' : Memory} (h : ByWrites m m') (hm : m.romIntact = true) :
    m'.romIntact = true := by
  induction h with
  | refl => exact hm
  | tail _ hw ih =>
    obtain ⟨b, v, rfl⟩ := hw
    exact romIntact_write ih b v

end ByWrites

/-! ## The engine writes memory only by byte writes -/

/-- The only shared operations that change memory are the two stores (R97). -/
theorem Made.byWrites {i : Instr} {s t : State} (h : Made i s t) : ByWrites s.mem t.mem := by
  cases h with
  | storeAcc r ea => exact .write s.mem ea _
  | storeX ea => exact .write16 s.mem ea _
  | loadAcc | loadX | branch | nop | endSentinel => exact .of_eq (by simp)
  | addAcc | subAcc | incAcc | decAcc => exact .of_eq (writeAlu_mem ..)

theorem stepWith_byWrites {c : EncodingParams} {s t : State} (h : stepWith c s = .next t) :
    ByWrites s.mem t.mem := by
  obtain ⟨-, rfl⟩ | ⟨-, i, -, hexec⟩ | ⟨-, op, -, rfl⟩ := stepWith_cases h
  · exact .refl _
  · exact (made_of_exec hexec).byWrites
  · exact .of_eq (by simp)

theorem stepOnce_byWrites (c : EncodingParams) (s : State) : ByWrites s.mem (stepOnce c s).1.mem := by
  unfold stepOnce
  split
  case h_1 t h => exact stepWith_byWrites h
  case h_2 => exact .refl _
  case h_3 => exact .refl _

theorem stepTimes_byWrites (c : EncodingParams) (n : Nat) (s : State) :
    ByWrites s.mem (stepTimes c n s).mem := by
  induction n generalizing s with
  | zero => exact .refl _
  | succ n ih => exact (stepOnce_byWrites c s).trans (ih _)

theorem runFor_byWrites {c : EncodingParams} {n : Nat} {s t : State} (h : runFor c n s = some t) :
    ByWrites s.mem t.mem := by
  induction n generalizing s with
  | zero =>
    simp only [runFor] at h
    split_ifs at h
    cases h; exact .refl _
  | succ n ih =>
    simp only [runFor] at h
    split_ifs at h
    · cases h; exact .refl _
    · exact (stepOnce_byWrites c s).trans (ih h)

/-! ## So does the loader -/

theorem writeBytes_byWrites (m : Memory) (cursor : Nat) (vs : List Byte) :
    ByWrites m (writeBytes m cursor vs) := by
  induction vs generalizing m cursor with
  | nil => exact .refl _
  | cons v vs ih => exact (ByWrites.write m _ v).trans (ih _ _)

theorem loadRecords_byWrites (c : EncodingParams) (m : Memory) (cursor : Nat) (p : Program) :
    ByWrites m (loadRecords c m cursor p) := by
  induction p generalizing m cursor with
  | nil => exact .refl _
  | cons r p ih => exact (writeBytes_byWrites m cursor _).trans (ih _ _)

/-- A load that is not refused: the program fits, and its records are written from 0x0000 on (R93, R95). -/
theorem loadProgramWith_eq_ok {c : EncodingParams} {p : Program} {s t : State} :
    loadProgramWith c p s = .ok t ↔
      Program.size p ≤ 0x8000 ∧ t = { s with mem := loadRecords c s.mem 0 p } := by
  unfold loadProgramWith Program.fits
  split_ifs with h
  · simpa [of_decide_eq_true h] using eq_comm
  · simpa using fun hle => absurd (decide_eq_true hle) h

theorem performLoad_byWrites (c : EncodingParams) (p : Program) (s : State) :
    ByWrites s.mem (performLoad c p s).1.mem := by
  unfold performLoad
  split
  case h_1 t h =>
    obtain ⟨-, rfl⟩ := loadProgramWith_eq_ok.mp h
    exact loadRecords_byWrites c s.mem 0 p
  case h_2 => exact .refl _

/-! ## What every operation of the host does to memory -/

/-- An operation of the host either is one of the two that reset memory, or only writes bytes through the
address decoder. -/
theorem hostPerform_mem (k : Params) (op : HostOp) (s : State) :
    ((op = .memReset ∨ op = .powerOn) ∧ (hostPerform k op s).1.mem = Memory.afterReset) ∨
      ByWrites s.mem (hostPerform k op s).1.mem := by
  cases op with
  | memReset => exact .inl ⟨.inl rfl, rfl⟩
  | powerOn => exact .inl ⟨.inr rfl, congrArg State.mem (powerOn_eq_reset s)⟩
  | procReset | snapshot | readByte => exact .inr (.refl _)
  | assemble text =>
    right
    simp only [hostPerform]
    split <;> exact .refl _
  | load p => exact .inr (performLoad_byWrites k.encoding p s)
  | assembleAndLoad text =>
    right
    simp only [hostPerform]
    split
    · exact performLoad_byWrites k.encoding _ s
    · exact .refl _
  | step => exact .inr (stepOnce_byWrites k.encoding s)
  | run fuel =>
    right
    simp only [hostPerform]
    split
    case h_1 t h => exact runFor_byWrites h
    case h_2 => exact stepTimes_byWrites k.encoding fuel s

/-- ROM is intact in every state the host can bring about (R74). -/
theorem Reachable.romIntact {k : Params} {s : State} (h : Reachable k s) : s.mem.romIntact = true := by
  induction h with
  | powerOn => exact romIntact_afterReset
  | @perform s op _ ih =>
    obtain ⟨-, hreset⟩ | hwrites := hostPerform_mem k op s
    · rw [hreset]; exact romIntact_afterReset
    · exact hwrites.romIntact ih

/-! ## The statements about ROM and about MemReset -/

/-- Settles O12: a step only writes bytes, a byte written to ROM is discarded, and intact ROM reads as the
reset left it. -/
theorem romIsImmutable : Obligations.RomIsImmutable := by
  refine ⟨fun c s t a hstep ha => ?step, fun s a v ha => ?write, fun k s a hs ha => ?contents⟩
  case step => exact (stepWith_byWrites hstep).read_rom ha
  case write => rw [State.memWrite, write_rom s.mem ha]
  case contents =>
    have hread : s.memRead a = Memory.resetByte a.toNat := read_rom_of_intact hs.romIntact ha
    rw [hread, Memory.resetByte, if_neg (by omega)]

/-- Settles O47: MemReset replaces the memory field alone, by one that reads as R86 says; every operation
that is not one of the two resets of memory only writes bytes, which ROM discards. -/
theorem memResetRestoresEveryByteAndNoRegister : Obligations.MemResetRestoresEveryByteAndNoRegister := by
  intro s
  refine ⟨fun a => read_afterReset a, flagsKeptBut_of_cc rfl [], ?registers, rfl, rfl,
    fun k op a hreset hpower ha => ?others⟩
  case registers => exact regsKeptBut_nil rfl rfl rfl rfl rfl rfl rfl
  case others =>
    obtain ⟨hop, -⟩ | hwrites := hostPerform_mem k op s
    · exact absurd hop (not_or.mpr ⟨hreset, hpower⟩)
    · exact hwrites.read_rom ha

end Sys2Proof.Machine
end

section
/-! The bytes a load leaves in memory (R93, R94): loading record by record is writing the records' bytes one
after another, and `read_writeBytes` says what every address reads after that. -/

namespace Sys2Proof.Machine

/-- What every address reads after bytes are written into RAM from `cursor` on: its byte of the list, and
outside the bytes written what it read before. -/
theorem read_writeBytes {m : Memory} (hm : m.wf = true) {cursor : Nat} {vs : List Byte}
    (hfit : cursor + vs.length ≤ 0x8000) (a : Word) :
    (writeBytes m cursor vs).read a =
      if cursor ≤ a.toNat then (vs[a.toNat - cursor]?).getD (m.read a) else m.read a := by
  induction vs generalizing m cursor with
  | nil => simp [writeBytes]
  | cons v vs ih =>
    simp only [List.length_cons] at hfit
    have hcursor : (maskAddr cursor).toNat = cursor := by
      simp only [maskAddr, BitVec.toNat_ofNat]; omega
    have hother (h : a.toNat ≠ cursor) : a ≠ maskAddr cursor := fun e => h (e ▸ hcursor)
    rw [writeBytes, ih (wf_write hm _ v) (by omega)]
    obtain hlt | heq | hgt := Nat.lt_trichotomy a.toNat cursor
    · rw [if_neg (by omega), if_neg (by omega), read_write_ne m v (hother hlt.ne)]
    · have ha : a = maskAddr cursor := BitVec.eq_of_toNat_eq (heq.trans hcursor.symm)
      rw [if_neg (by omega), if_pos (by omega), ha, read_write_self hm, hcursor, if_pos (by omega)]
      simp
    · have hindex : a.toNat - cursor = a.toNat - (cursor + 1) + 1 := by omega
      rw [if_pos (by omega), if_pos (by omega), read_write_ne m v (hother hgt.ne'), hindex,
        List.getElem?_cons_succ]

theorem writeBytes_append (m : Memory) (cursor : Nat) (vs ws : List Byte) :
    writeBytes m cursor (vs ++ ws) = writeBytes (writeBytes m cursor vs) (cursor + vs.length) ws := by
  induction vs generalizing m cursor with
  | nil => rfl
  | cons v vs ih =>
    have hcursor : cursor + (v :: vs).length = cursor + 1 + vs.length := by
      simp only [List.length_cons]; omega
    rw [List.cons_append, writeBytes, ih, writeBytes, hcursor]

/-- A record contributes as many bytes as its mode's size (R94, R118). -/
theorem length_recordBytesWith (c : EncodingParams) (r : Record) :
    (recordBytesWith c r).length = r.size := by
  obtain ⟨mnemonic, mode, operand⟩ := r
  cases mode <;> rfl

theorem length_programBytesWith (c : EncodingParams) (p : Program) :
    (programBytesWith c p).length = Program.size p := by
  simp only [programBytesWith, Program.size, List.length_flatMap, length_recordBytesWith]

/-- Loading record by record is writing the program's bytes one after another (R93). -/
theorem loadRecords_eq_writeBytes (c : EncodingParams) (m : Memory) (cursor : Nat) (p : Program) :
    loadRecords c m cursor p = writeBytes m cursor (programBytesWith c p) := by
  induction p generalizing m cursor with
  | nil => rfl
  | cons r p ih =>
    rw [programBytesWith, List.flatMap_cons, writeBytes_append, length_recordBytesWith, loadRecords, ih]
    rfl

/-- What every address reads after a load into a canonical memory: its byte of the program, and past the
program what it read before (R93, R96). -/
theorem memRead_of_loadProgramWith {c : EncodingParams} {p : Program} {s t : State}
    (hm : s.mem.wf = true) (h : loadProgramWith c p s = .ok t) (a : Word) :
    t.memRead a = ((programBytesWith c p)[a.toNat]?).getD (s.memRead a) := by
  obtain ⟨hsize, rfl⟩ := loadProgramWith_eq_ok.mp h
  have hfit : 0 + (programBytesWith c p).length ≤ 0x8000 := by
    rw [length_programBytesWith]; omega
  simp only [State.memRead, loadRecords_eq_writeBytes]
  rw [read_writeBytes hm hfit, if_pos (Nat.zero_le _), Nat.sub_zero]

/-- Settles O49: a record's bytes by its mode, and after a load the byte that each address of the program
reads; the loader's bound keeps those addresses below 0x8000, so none wraps. -/
theorem loadWritesEachRecordsBytesInOrder : Obligations.LoadWritesEachRecordsBytesInOrder := by
  refine ⟨fun c r => ?bytes, fun c p s t hm hload n v hv => ?order⟩
  case bytes =>
    obtain ⟨mnemonic, mode, operand⟩ := r
    cases mode <;> rfl
  case order =>
    have hbyte : (programBytesWith c p)[n]? = some v := hv
    obtain ⟨hsize, -⟩ := loadProgramWith_eq_ok.mp hload
    obtain ⟨hn, -⟩ := List.getElem?_eq_some_iff.mp hbyte
    rw [length_programBytesWith] at hn
    have haddr : (BitVec.ofNat 16 n : Word).toNat = n := by
      rw [BitVec.toNat_ofNat]; omega
    rw [memRead_of_loadProgramWith hm hload, haddr, hbyte, Option.getD_some]

end Sys2Proof.Machine
end

section
/-! Encodings and their sizes (30_encoding.md R110, R111, R118). -/

namespace Sys2Proof.Machine

/-- The operand bytes of an instruction fill its mode's size up from the opcode byte; a branch's one
offset byte fills the DIRECT slot (R111). -/
theorem length_operandBytes (i : Instr) : i.operand.bytes.length + 1 = i.form.mode.size := by
  cases i <;> rfl

theorem length_encodeWith (c : EncodingParams) (i : Instr) :
    (encodeWith c i).length = i.form.mode.size := by
  rw [encodeWith, List.length_cons, length_operandBytes]

theorem head?_encodeWith (c : EncodingParams) (i : Instr) :
    (encodeWith c i).head? = some (c.opc i.form) := List.head?_cons

/-- Settles O21: the four sizes of R118, and the laws of the encoder's length and first byte. -/
theorem encodedLengthIsTheModesSize : Obligations.EncodedLengthIsTheModesSize :=
  ⟨⟨rfl, rfl, rfl, rfl⟩, fun c i => ⟨length_encodeWith c i, head?_encodeWith c i⟩⟩

end Sys2Proof.Machine
end

section
/-! The assembler's pass over the lines of a text (30_encoding.md R127, R128, R134, R135). Lines that parse
and are no `END` only number the lines behind them and pass their error on; so an assembly without `END`
fails at its first malformed line, or at the end of input if there is none. -/

namespace Sys2Proof.Machine

theorem assembleLines_cons_of_malformed {p : AsmParams} {line : List Char}
    (h : parseLine p line = .malformed) (n : Nat) (lines : List (List Char)) :
    assembleLines p n (line :: lines) = .error (.syntaxError n line) := by
  rw [assembleLines, h]

/-- Behind a line that parses and is no `END`, an error of the remaining lines is the result. -/
theorem assembleLines_cons_of_error {p : AsmParams} {n : Nat} {line : List Char}
    {lines : List (List Char)} {e : AsmError} (hend : parseLine p line ≠ .endOfSource)
    (hbad : parseLine p line ≠ .malformed) (h : assembleLines p (n + 1) lines = .error e) :
    assembleLines p n (line :: lines) = .error e := by
  rw [assembleLines]
  cases hline : parseLine p line with
  | skip => exact h
  | endOfSource => exact absurd hline hend
  | malformed => exact absurd hline hbad
  | record r => simp only [h]

/-- Behind any number of such lines, the same, with the numbers counted on. -/
theorem assembleLines_append_of_error {p : AsmParams} {n : Nat} {before rest : List (List Char)}
    {e : AsmError} (hend : ∀ l ∈ before, parseLine p l ≠ .endOfSource)
    (hbad : ∀ l ∈ before, parseLine p l ≠ .malformed)
    (h : assembleLines p (n + before.length) rest = .error e) :
    assembleLines p n (before ++ rest) = .error e := by
  induction before generalizing n with
  | nil => exact h
  | cons line lines ih =>
    obtain ⟨hendLine, hendLines⟩ := List.forall_mem_cons.mp hend
    obtain ⟨hbadLine, hbadLines⟩ := List.forall_mem_cons.mp hbad
    have hcount : n + (line :: lines).length = n + 1 + lines.length := by
      simp only [List.length_cons]; omega
    rw [hcount] at h
    exact assembleLines_cons_of_error hendLine hbadLine (ih hendLines hbadLines h)

/-- Lines that all parse, none of them an `END`, run out (R135). -/
theorem assembleLines_eq_missingEnd {p : AsmParams} {lines : List (List Char)}
    (hend : ∀ l ∈ lines, parseLine p l ≠ .endOfSource)
    (hbad : ∀ l ∈ lines, parseLine p l ≠ .malformed) (n : Nat) :
    assembleLines p n lines = .error .missingEnd := by
  rw [← List.append_nil lines]
  exact assembleLines_append_of_error hend hbad rfl

/-- Without an `END`, the first malformed line is the error (R134). -/
theorem assembleLines_eq_syntaxError {p : AsmParams} {lines : List (List Char)}
    (hend : ∀ l ∈ lines, parseLine p l ≠ .endOfSource)
    (hbad : ∃ l ∈ lines, parseLine p l = .malformed) (n : Nat) :
    ∃ m l, assembleLines p n lines = .error (.syntaxError m l) := by
  obtain ⟨bad, hfirst⟩ : ∃ bad, lines.find? (parseLine p · = .malformed) = some bad :=
    Option.isSome_iff_exists.mp (List.find?_isSome.mpr (by simpa using hbad))
  obtain ⟨hmalformed, before, rest, rfl, hbefore⟩ := List.find?_eq_some_iff_append.mp hfirst
  exact ⟨n + before.length, bad, assembleLines_append_of_error
    (fun l hl => hend l (List.mem_append_left _ hl)) (fun l hl => by simpa using hbefore l hl)
    (assembleLines_cons_of_malformed (of_decide_eq_true hmalformed) _ rest)⟩

/-- `END` is the only way to a program: without it every assembly fails (R135). -/
theorem assembleLines_eq_error {p : AsmParams} {lines : List (List Char)}
    (hend : ∀ l ∈ lines, parseLine p l ≠ .endOfSource) (n : Nat) :
    ∃ e, assembleLines p n lines = .error e := by
  by_cases hbad : ∃ l ∈ lines, parseLine p l = .malformed
  · obtain ⟨m, l, h⟩ := assembleLines_eq_syntaxError hend hbad n
    exact ⟨_, h⟩
  · exact ⟨_, assembleLines_eq_missingEnd hend (fun l hl h => hbad ⟨l, hl, h⟩) n⟩

/-- After a failed assembly there is no load (R96). -/
theorem hostPerform_assembleAndLoad_of_error {k : Params} {text : List Char} {e : AsmError}
    (h : assembleWith k.asm text = .error e) (s : State) :
    hostPerform k (.assembleAndLoad text) s = (s, .asmError e) := by
  simp only [hostPerform, h]

/-- The empty text is one blank line (R127). -/
theorem assembleWith_nil (p : AsmParams) : assembleWith p [] = .error .missingEnd := by
  have hskip : parseLine p [] = .skip := rfl
  exact assembleLines_eq_missingEnd (by simp [splitLines, hskip]) (by simp [splitLines, hskip]) 1

/-- Settles O57: the text's lines have no `END`, so the pass over them ends in one of its two errors. -/
theorem missingEndAlwaysFails : Obligations.MissingEndAlwaysFails := by
  refine fun k => ⟨fun text hend => ⟨fun hbad => ?parses, fun hbad => ?malformed, fun s => ?noLoad⟩,
    assembleWith_nil k.asm⟩
  case parses => exact assembleLines_eq_missingEnd hend hbad 1
  case malformed => exact assembleLines_eq_syntaxError hend hbad 1
  case noLoad =>
    obtain ⟨e, he⟩ := assembleLines_eq_error hend 1
    rw [hostPerform_assembleAndLoad_of_error he]

end Sys2Proof.Machine
end

section
/-! The ALU functions (41_arithmetic.md R200 to R203). The laws `flagOf_add8`, `flagOf_sub8`, `flagOf_inc8` and
`flagOf_dec8` give every flag after an operation, and `add8_value` and the like its result as a byte; what
is left is to read that byte as a number modulo 256. -/

namespace Sys2Proof.Machine

/-- The difference of two bytes is the integer difference wrapped into the byte range. -/
theorem toNat_byte_sub (r m : Byte) : ((r - m).toNat : Int) = ((r.toNat : Int) - m.toNat) % 256 := by
  rw [BitVec.toNat_sub]
  omega

/-- Settles O3: the flag clauses are the branches of `flagOf_add8`; CC does not occur in `add8_value`. -/
theorem add8GivesTruncatedSumAndCarryOut : Obligations.Add8GivesTruncatedSumAndCarryOut := by
  intro cc r m
  refine ⟨?sum, ?negative, ?zero, ?carry, fun g hn hz hc => ?others, fun cc' => ?noCarryIn⟩
  case sum => rw [add8_value, BitVec.toNat_add]
  case negative => simp [flagOf_add8, add8_value]
  case zero => simp [flagOf_add8, add8_value]
  case carry => rw [flagOf_add8, if_pos rfl]
  case others => rw [flagOf_add8, if_neg hc, if_neg hn, if_neg hz]
  case noCarryIn => rw [add8_value, add8_value]

/-- Settles O4: as for the sum; the law `flagOf_sub8` has the borrow as `r < m`, which is a negative raw
difference. -/
theorem sub8GivesTruncatedDifferenceAndBorrow : Obligations.Sub8GivesTruncatedDifferenceAndBorrow := by
  intro cc r m
  refine ⟨?difference, ?negative, ?zero, ?borrow, fun g hn hz hc => ?others, fun cc' => ?noBorrowIn⟩
  case difference => rw [sub8_value, toNat_byte_sub]
  case negative => simp [flagOf_sub8, sub8_value]
  case zero => simp [flagOf_sub8, sub8_value]
  case borrow =>
    have hborrow : r.toNat < m.toNat ↔ (r.toNat : Int) - m.toNat < 0 := by omega
    rw [flagOf_sub8, if_pos rfl, decide_eq_decide.mpr hborrow]
  case others => rw [flagOf_sub8, if_neg hc, if_neg hn, if_neg hz]
  case noBorrowIn => rw [sub8_value, sub8_value]

/-- Settles O5: the laws of the two operations have no branch for C, so it is among the flags they keep. -/
theorem incrementAndDecrementWrapAndKeepCarry : Obligations.IncrementAndDecrementWrapAndKeepCarry := by
  intro cc r
  refine ⟨?incValue, ?decValue, ?incNegative, ?incZero, ?decNegative, ?decZero,
    fun g hn hz => ⟨?incOthers, ?decOthers⟩⟩
  case incValue => rw [inc8_value, BitVec.toNat_add]; rfl
  case decValue => rw [dec8_value, toNat_byte_sub]; rfl
  case incNegative => rw [flagOf_inc8, if_pos rfl, inc8_value]
  case incZero => simp [flagOf_inc8, inc8_value]
  case decNegative => rw [flagOf_dec8, if_pos rfl, dec8_value]
  case decZero => simp [flagOf_dec8, dec8_value]
  case incOthers => rw [flagOf_inc8, if_neg hn, if_neg hz]
  case decOthers => rw [flagOf_dec8, if_neg hn, if_neg hz]

end Sys2Proof.Machine
end

section
/-! Where the PC goes (10_state.md R49; 42_branch.md R240). Every shared operation but a branch leaves the PC
past the fetched instruction, and a branch either does too or adds its signed offset there; a step of a
running engine whose bytes decode is one of these. -/

namespace Sys2Proof.Machine

/-- The branches are the two-byte relative form (R116, R118). -/
theorem size_of_isBranch {f : Form} (h : f.isBranch = true) : f.size = 2 := by
  cases f with
  | bra | bne | beq => rfl
  | _ => cases h

/-- The PC after one instruction: past it, or at a branch's target (R49, R240). -/
theorem Made.pc {i : Instr} {s t : State} (h : Made i s t) :
    t.pc = s.pc + BitVec.ofNat 16 i.size ∨
      ∃ off8, i.operand = .rel off8 ∧ i.form.isBranch = true ∧
        t.pc = s.pc + 2 + off8.signExtend 16 := by
  cases h with
  | branch taken off8 hbranch hoperand =>
    cases taken with
    | false => exact .inl rfl
    | true =>
      have hsize : i.size = 2 := size_of_isBranch hbranch
      refine .inr ⟨off8, hoperand, hbranch, ?_⟩
      rw [hsize]
      exact (branchIf_spec true off8 s).pc
  | loadAcc r m => exact .inl (loadAcc_spec r m _ s).pc
  | addAcc r m => exact .inl (addAcc_spec r m _ s).pc
  | subAcc r m => exact .inl (subAcc_spec r m _ s).pc
  | incAcc r => exact .inl (incAcc_spec r _ s).pc
  | decAcc r => exact .inl (decAcc_spec r _ s).pc
  | loadX | storeAcc | storeX | nop | endSentinel => exact .inl (by simp)

/-- A running engine whose three bytes from PC on decode to `i` steps as `i` does (R260). -/
theorem stepWith_eq_exec {c : EncodingParams} {s : State} {i : Instr} (hrun : s.halted = false)
    (hdec : decodeWith c (s.memRead s.pc) (s.memRead (s.pc + 1)) (s.memRead (s.pc + 2)) = .ok i) :
    stepWith c s = exec i s := by
  rw [← fetchDecode_eq] at hdec
  simp [stepWith, hrun, hdec]

/-- Settles O28: the step is the decoded instruction, and `Made.pc` has its PC. -/
theorem pcMovesPastTheInstructionOrToABranchTarget :
    Obligations.PcMovesPastTheInstructionOrToABranchTarget := by
  intro c s t i hrun hdec hstep
  rw [stepWith_eq_exec hrun hdec] at hstep
  exact (made_of_exec hstep).pc

end Sys2Proof.Machine
end

section
/-! The operand forms as numbers (30_encoding.md R113 to R116). -/

namespace Sys2Proof.Machine

/-- Zero extension keeps the number. -/
theorem toNat_zext16 (b : Byte) : (zext16 b).toNat = b.toNat :=
  BitVec.toNat_setWidth_of_le (by decide)

/-- Sign extension keeps the signed number. -/
theorem toInt_sext16 (b : Byte) : (sext16 b).toInt = b.toInt :=
  BitVec.toInt_signExtend_of_le (by decide)

/-- The first byte of a word is the high one (R115). -/
theorem toNat_joinBytes (hi lo : Byte) : (joinBytes hi lo).toNat = hi.toNat * 256 + lo.toNat := by
  rw [joinBytes, BitVec.toNat_append, ← Nat.shiftLeft_add_eq_or_of_lt lo.isLt, Nat.shiftLeft_eq]

/-- The sum of two words wraps the same way whether the second is read as unsigned or as signed. -/
theorem toNat_word_add_toInt (x y : Word) :
    ((x + y).toNat : Int) = ((x.toNat : Int) + y.toInt) % 65536 := by
  have hsigned : y.toInt % 65536 = (y.toNat : Int) % 65536 := by
    rw [BitVec.toInt_eq_toNat_bmod]; exact Int.bmod_emod
  rw [BitVec.toNat_add]
  omega

/-- Settles O7: each operand form is a zero extension, a join of bytes, or the sum of the PC and a sign
extension. -/
theorem operandFormsExtendAsTheEncodingSays : Obligations.OperandFormsExtendAsTheEncodingSays := by
  refine ⟨fun m => ⟨rfl, ?immediate16⟩, fun a => ?direct, fun _ => rfl, toNat_joinBytes,
    fun pc off => ?target⟩
  case immediate16 => exact toNat_zext16 m
  case direct => exact toNat_zext16 a
  case target => rw [branchTarget, toNat_word_add_toInt, toInt_sext16]

end Sys2Proof.Machine
end

section
/-! The HALTED engine (43_control.md R267). One step of it is the identity, so `Step` any number of times
and `Run` are too; the other operations that are no reset of the engine never touch `halted`. -/

namespace Sys2Proof.Machine

theorem stepWith_of_halted (c : EncodingParams) {s : State} (h : s.halted = true) :
    stepWith c s = .next s := if_pos h

theorem stepTrace_of_halted (c : EncodingParams) {s : State} (h : s.halted = true) :
    stepTrace c s = .halted := if_pos h

theorem stepOnce_of_halted (c : EncodingParams) {s : State} (h : s.halted = true) :
    stepOnce c s = (s, .halted) := by
  simp only [stepOnce, stepWith_of_halted c h, stepTrace_of_halted c h]

theorem stepTimes_of_halted (c : EncodingParams) (n : Nat) {s : State} (h : s.halted = true) :
    stepTimes c n s = s := by
  induction n with
  | zero => rfl
  | succ n ih => rw [stepTimes, stepOnce_of_halted c h, ih]

/-- `Run` answers a HALTED engine at once, with any fuel (R264). -/
theorem runFor_of_halted (c : EncodingParams) (n : Nat) {s : State} (h : s.halted = true) :
    runFor c n s = some s := by
  cases n with
  | zero => exact if_pos h
  | succ n => exact if_pos h

/-- `Load` neither starts nor halts the engine, whether or not it refuses the program (R96). -/
theorem performLoad_halted (c : EncodingParams) (p : Program) (s : State) :
    (performLoad c p s).1.halted = s.halted := by
  unfold performLoad
  split
  case h_1 t h =>
    obtain ⟨-, rfl⟩ := loadProgramWith_eq_ok.mp h
    rfl
  case h_2 => rfl

/-- Only a reset of the engine leads out of HALTED (R53, R288). -/
theorem hostPerform_halted_of_halted (k : Params) {op : HostOp} {s : State} (h : s.halted = true)
    (hpower : op ≠ .powerOn) (hreset : op ≠ .procReset) : (hostPerform k op s).1.halted = true := by
  cases op with
  | powerOn => exact absurd rfl hpower
  | procReset => exact absurd rfl hreset
  | memReset => exact (memReset_halted s).trans h
  | snapshot | readByte => exact h
  | assemble text =>
    simp only [hostPerform]
    split <;> exact h
  | load p => exact (performLoad_halted k.encoding p s).trans h
  | assembleAndLoad text =>
    simp only [hostPerform]
    split
    · exact (performLoad_halted k.encoding _ s).trans h
    · exact h
  | step => simpa only [hostPerform, stepOnce_of_halted k.encoding h] using h
  | run fuel => simpa only [hostPerform, runFor_of_halted k.encoding fuel h] using h

/-- Settles O24: a step of a HALTED engine is the identity, and no operation but a reset clears `halted`. -/
theorem haltedIsTerminalUntilAReset : Obligations.HaltedIsTerminalUntilAReset := fun k _ h =>
  ⟨stepWith_of_halted k.encoding h, stepTrace_of_halted k.encoding h,
    fun n => stepTimes_of_halted k.encoding n h, fun _ => hostPerform_halted_of_halted k h⟩

end Sys2Proof.Machine
end

section
/-! `ProcReset` (R310): the reset vector it reads, and the operations that start a HALTED engine again.
Each field it writes has its lemma in Laws/State.lean. -/

namespace Sys2Proof.Machine

/-- `ProcReset` reads the reset vector with its high byte first, at 0xFFFE (R85). -/
theorem procReset_pc_eq_append (s : State) :
    (procReset s).pc = s.memRead 0xFFFE ++ s.memRead 0xFFFF := rfl

theorem procReset_pc_of_romIntact {s : State} (h : s.mem.romIntact = true) : (procReset s).pc = 0 :=
  (procReset_pc s).trans (resetVector_of_intact h)

/-- An operation after which a HALTED engine runs is a reset of the engine (R288). -/
theorem eq_reset_of_hostPerform_running {k : Params} {op : HostOp} {s : State} (hhalted : s.halted = true)
    (hrunning : (hostPerform k op s).1.halted = false) : op = .powerOn ∨ op = .procReset := by
  by_contra hop
  obtain ⟨hpower, hreset⟩ := not_or.mp hop
  have hstays : (hostPerform k op s).1.halted = true := hostPerform_halted_of_halted k hhalted hpower hreset
  exact Bool.false_ne_true (hrunning.symm.trans hstays)

/-- Settles O46: each field of `procReset` by its law, PC over an intact ROM by the bytes `MemReset` left in
the vector, and the way out of HALTED from what every other operation keeps. -/
theorem procResetGivesTheDefaultsAndKeepsMemory : Obligations.ProcResetGivesTheDefaultsAndKeepsMemory :=
  fun s => ⟨procReset_a s, procReset_b s, procReset_dp s, procReset_x s, procReset_y s, procReset_s s,
    procReset_u s, procReset_cc s, procReset_pc_eq_append s, procReset_pc_of_romIntact,
    procReset_halted s, procReset_mem s, fun _ _ => eq_reset_of_hostPerform_running⟩

end Sys2Proof.Machine
end

section
/-! The decoder against the encoder (30_encoding.md R110 to R122). A form reads as many of the two bytes after
its opcode as its size says, and `decodeBytesWith_eq_ok_iff` says that a list of bytes decodes to an
instruction exactly when it begins with that instruction's opcode and operand bytes. -/

namespace Sys2Proof.Machine

/-! ## What a form builds -/

/-- A one-byte form reads neither following byte. -/
theorem build_congr_of_size1 {f : Form} (h : f.size = 1) (b1 b2 b1' b2' : Byte) :
    f.build b1 b2 = f.build b1' b2' := by
  cases f with
  | endSentinel | nop | deca | inca | decb | incb => rfl
  | _ => cases h

/-- A two-byte form does not read the second following byte. -/
theorem build_congr_of_size2 {f : Form} (h : f.size = 2) (b1 b2 b2' : Byte) :
    f.build b1 b2 = f.build b1 b2' := by
  cases f with
  | subaExt | ldaExt | staExt | addaExt | ldxExt | stxExt => cases h
  | subbExt | ldbExt | stbExt | addbExt => cases h
  | _ => rfl

/-- Every instruction is what its form builds from its own operand bytes. -/
theorem build_operandBytes (i : Instr) :
    i.form.build (i.operand.bytes.getD 0 0) (i.operand.bytes.getD 1 0) = i := by
  open Sys2Proof.Laws in
  cases i
  exacts [Rebuild.endSentinel, Rebuild.nop, Rebuild.bra _, Rebuild.bne _, Rebuild.beq _, Rebuild.deca,
    Rebuild.inca, Rebuild.decb, Rebuild.incb, Rebuild.subaImm _, Rebuild.ldaImm _, Rebuild.addaImm _,
    Rebuild.ldxImm _, Rebuild.subaDir _, Rebuild.ldaDir _, Rebuild.staDir _, Rebuild.addaDir _,
    Rebuild.ldxDir _, Rebuild.stxDir _, Rebuild.subaExt _, Rebuild.ldaExt _, Rebuild.staExt _,
    Rebuild.addaExt _, Rebuild.ldxExt _, Rebuild.stxExt _, Rebuild.subbImm _, Rebuild.ldbImm _,
    Rebuild.addbImm _, Rebuild.subbDir _, Rebuild.ldbDir _, Rebuild.stbDir _, Rebuild.addbDir _,
    Rebuild.subbExt _, Rebuild.ldbExt _, Rebuild.stbExt _, Rebuild.addbExt _]

theorem exists_build_eq (i : Instr) : ∃ b1 b2, i.form.build b1 b2 = i := ⟨_, _, build_operandBytes i⟩

/-- A form builds an instruction from any two bytes that begin with its operand bytes. -/
theorem build_of_operandBytes_prefix {i : Instr} {b1 b2 : Byte} (h : i.operand.bytes <+: [b1, b2]) :
    i.form.build b1 b2 = i := by
  generalize hform : i.form = f
  obtain ⟨x, y, rfl⟩ : ∃ x y, f.build x y = i := hform ▸ exists_build_eq i
  obtain hsize | hsize | hsize := form_size_cases f
  · exact build_congr_of_size1 hsize ..
  · rw [operandBytes_size2 hsize] at h
    obtain ⟨rfl, -⟩ := List.cons_prefix_cons.mp h
    exact build_congr_of_size2 hsize ..
  · rw [operandBytes_size3 hsize] at h
    obtain ⟨rfl, hrest⟩ := List.cons_prefix_cons.mp h
    obtain ⟨rfl, -⟩ := List.cons_prefix_cons.mp hrest
    rfl

/-! ## The decoder of byte lists -/

/-- A form's opcode byte and the operand bytes of what it builds decode to that, and to what follows. -/
theorem decodeBytesWith_build {c : EncodingParams} {op : Byte} {f : Form} (hf : formOf c op = some f)
    (b1 b2 : Byte) (rest : List Byte) :
    decodeBytesWith c (op :: ((f.build b1 b2).operand.bytes ++ rest)) = .ok (f.build b1 b2, rest) := by
  obtain hsize | hsize | hsize := form_size_cases f
  · rw [operandBytes_size1 hsize, build_congr_of_size1 hsize b1 b2 0 0]
    simp [decodeBytesWith, hf, hsize]
  · rw [operandBytes_size2 hsize, build_congr_of_size2 hsize b1 b2 0]
    simp [decodeBytesWith, hf, hsize]
  · rw [operandBytes_size3 hsize]
    simp [decodeBytesWith, hf, hsize]

/-- Inversion of the decoder: the opcode byte has a form, and as many bytes as its size asks for follow. -/
theorem exists_build_of_decodeBytesWith {c : EncodingParams} {bs rest : List Byte} {i : Instr}
    (h : decodeBytesWith c bs = .ok (i, rest)) :
    ∃ op f b1 b2, formOf c op = some f ∧ i = f.build b1 b2 ∧
      bs = op :: ((f.build b1 b2).operand.bytes ++ rest) := by
  obtain _ | ⟨op, bs⟩ := bs
  · cases h
  cases hf : formOf c op with
  | none => simp [decodeBytesWith, hf] at h
  | some f =>
    obtain hsize | hsize | hsize := form_size_cases f
    · simp only [decodeBytesWith, hf, hsize, Except.ok.injEq, Prod.mk.injEq] at h
      obtain ⟨rfl, rfl⟩ := h
      exact ⟨op, f, 0, 0, hf, rfl, by rw [operandBytes_size1 hsize]; rfl⟩
    · obtain _ | ⟨b1, bs⟩ := bs
      · simp [decodeBytesWith, hf, hsize] at h
      simp only [decodeBytesWith, hf, hsize, Except.ok.injEq, Prod.mk.injEq] at h
      obtain ⟨rfl, rfl⟩ := h
      exact ⟨op, f, b1, 0, hf, rfl, by rw [operandBytes_size2 hsize]; rfl⟩
    · obtain _ | ⟨b1, _ | ⟨b2, bs⟩⟩ := bs
      · simp [decodeBytesWith, hf, hsize] at h
      · simp [decodeBytesWith, hf, hsize] at h
      simp only [decodeBytesWith, hf, hsize, Except.ok.injEq, Prod.mk.injEq] at h
      obtain ⟨rfl, rfl⟩ := h
      exact ⟨op, f, b1, b2, hf, rfl, by rw [operandBytes_size3 hsize]; rfl⟩

/-- What a list of bytes decodes to: an opcode byte gives the form, and the operand bytes of the
instruction follow it (R110, R121). -/
theorem decodeBytesWith_eq_ok_iff {c : EncodingParams} {bs rest : List Byte} {i : Instr} :
    decodeBytesWith c bs = .ok (i, rest) ↔
      ∃ op, formOf c op = some i.form ∧ bs = op :: (i.operand.bytes ++ rest) := by
  constructor
  · intro h
    obtain ⟨op, f, b1, b2, hf, rfl, rfl⟩ := exists_build_of_decodeBytesWith h
    exact ⟨op, by rw [form_build, hf], rfl⟩
  · rintro ⟨op, hf, rfl⟩
    obtain ⟨b1, b2, hbuild⟩ := exists_build_eq i
    have hdec := decodeBytesWith_build hf b1 b2 rest
    rwa [hbuild] at hdec

/-- Settles O16: under a legal map the opcode byte of the encoding gives the form back. -/
theorem decodeOfEncodeUnderEveryLegalMap : Obligations.DecodeOfEncodeUnderEveryLegalMap := fun _ i _ hc =>
  decodeBytesWith_eq_ok_iff.mpr ⟨_, formOf_opc hc i.form, rfl⟩

/-- Settles O17: the byte that was decoded to a form is that form's opcode. -/
theorem encodeOfDecodeUnderEveryMap : Obligations.EncodeOfDecodeUnderEveryMap := by
  intro c bs rest i h
  obtain ⟨op, hf, rfl⟩ := decodeBytesWith_eq_ok_iff.mp h
  rw [encodeWith, opc_of_formOf hf, List.cons_append]

/-! ## The engine's three-byte decoder -/

theorem formOf_eq_none_iff {c : EncodingParams} {op : Byte} :
    formOf c op = none ↔ ∀ f, c.opc f ≠ op := by
  simp [formOf, mem_formAll]

theorem decodeWith_of_formOf {c : EncodingParams} {op : Byte} {f : Form} (h : formOf c op = some f)
    (b1 b2 : Byte) : decodeWith c op b1 b2 = .ok (f.build b1 b2) := by
  rw [decodeWith, h]

theorem decodeWith_of_formOf_none {c : EncodingParams} {op : Byte} (h : formOf c op = none)
    (b1 b2 : Byte) : decodeWith c op b1 b2 = .error (.invalidOpcode op) := by
  rw [decodeWith, h]

/-- What three bytes decode to is what the opcode's form builds (R121). -/
theorem decodeWith_eq_ok_iff {c : EncodingParams} {op b1 b2 : Byte} {i : Instr} :
    decodeWith c op b1 b2 = .ok i ↔ formOf c op = some i.form ∧ i.form.build b1 b2 = i := by
  constructor
  · intro h
    cases hf : formOf c op with
    | none => simp [decodeWith_of_formOf_none hf] at h
    | some f =>
      rw [decodeWith_of_formOf hf] at h
      cases h
      simp
  · rintro ⟨hf, hbuild⟩
    rw [decodeWith_of_formOf hf, hbuild]

/-- Three bytes that begin with an instruction's encoding decode to it. -/
theorem decodeWith_of_encodeWith_prefix {c : EncodingParams} (hc : c.legal = true) {i : Instr}
    {op b1 b2 : Byte} (h : encodeWith c i <+: [op, b1, b2]) : decodeWith c op b1 b2 = .ok i := by
  obtain ⟨rfl, hoperand⟩ := List.cons_prefix_cons.mp h
  exact decodeWith_eq_ok_iff.mpr ⟨formOf_opc hc i.form, build_of_operandBytes_prefix hoperand⟩

/-- The default bytes are 36 different ones (decisions D2, D3). -/
theorem legal_defaultEncoding : defaultEncoding.legal = true := by decide

/-- Settles O18: the three bytes begin with the encoding, and the default map is legal. -/
theorem engineDecodesEveryEncodedInstruction : Obligations.EngineDecodesEveryEncodedInstruction :=
  fun _ _ _ _ tail h => decodeWith_of_encodeWith_prefix legal_defaultEncoding ⟨tail, h⟩

/-- Settles O20: an invalid byte has no form, and a form reads only the bytes of its size. -/
theorem decodeUsesOnlyTheInstructionsOwnBytes : Obligations.DecodeUsesOnlyTheInstructionsOwnBytes := by
  intro op b1 b2 b1' b2'
  refine ⟨fun h => decodeWith_of_formOf_none h b1 b2, fun f hf => ⟨fun hsize => ?one, fun hsize => ?two⟩⟩
  case one =>
    rw [decode, decode, decodeWith_of_formOf hf, decodeWith_of_formOf hf,
      build_congr_of_size1 hsize b1 b2 b1' b2']
  case two =>
    rw [decode, decode, decodeWith_of_formOf hf, decodeWith_of_formOf hf,
      build_congr_of_size2 hsize b1 b2 b2']

/-- Settles O15: each word by its row of the table. -/
theorem decodeReadsTheTablesWords : Obligations.DecodeReadsTheTablesWords :=
  ⟨rfl, rfl, rfl, rfl, rfl, rfl, rfl, rfl, rfl, rfl, rfl, rfl⟩

/-! ## How many bytes are no opcode -/

/-- A byte value has a form exactly when it is the opcode of one. -/
theorem isSome_formOf_iff {c : EncodingParams} {n : Nat} (hn : n < 256) :
    (formOf c (BitVec.ofNat 8 n)).isSome = true ↔ n ∈ Form.all.map fun f => (c.opc f).toNat := by
  have hbyte (b : Byte) : b = BitVec.ofNat 8 n ↔ b.toNat = n := by
    rw [← BitVec.toNat_inj, BitVec.toNat_ofNat, Nat.mod_eq_of_lt hn]
  simp [formOf, mem_formAll, hbyte]

/-- Under a legal map 36 byte values are opcodes: they are the 36 different values of the map. -/
theorem countP_isSome_formOf {c : EncodingParams} (hc : c.legal = true) :
    (List.range 256).countP (fun n => (formOf c (BitVec.ofNat 8 n)).isSome) = 36 := by
  have hopcodes : (Form.all.map c.opc).Nodup := of_decide_eq_true hc
  have hvalues : (Form.all.map fun f => (c.opc f).toNat).Nodup := by
    simpa [Function.comp_def] using hopcodes.map fun _ _ => BitVec.eq_of_toNat_eq
  have hperm : ((List.range 256).filter fun n => (formOf c (BitVec.ofNat 8 n)).isSome).Perm
      (Form.all.map fun f => (c.opc f).toNat) := by
    refine (List.perm_ext_iff_of_nodup (List.nodup_range.filter _) hvalues).mpr fun n => ?_
    rw [List.mem_filter, List.mem_range]
    refine ⟨fun ⟨hn, hsome⟩ => (isSome_formOf_iff hn).mp hsome, fun h => ?_⟩
    obtain ⟨f, -, hf⟩ := List.mem_map.mp h
    have hn : n < 256 := hf ▸ (c.opc f).isLt
    exact ⟨hn, (isSome_formOf_iff hn).mpr h⟩
  rw [List.countP_eq_length_filter, hperm.length_eq, List.length_map]
  rfl

/-- Settles O19: the 220 invalid byte values are those left by the 36 opcodes. -/
theorem defaultMapIsLegalAndLeaves220BytesInvalid :
    Obligations.DefaultMapIsLegalAndLeaves220BytesInvalid := by
  refine ⟨legal_defaultEncoding, rfl, mem_formAll, ?_⟩
  have htotal := List.length_eq_countP_add_countP
    (fun n => (formOf defaultEncoding (BitVec.ofNat 8 n)).isSome) (l := List.range 256)
  rw [List.length_range, countP_isSome_formOf legal_defaultEncoding] at htotal
  rw [← List.countP_eq_length_filter]
  simp only [Bool.not_eq_true, Option.isSome_eq_false_iff, Bool.decide_eq_true] at htotal
  omega

/-! ## The look-up table (R117, R124) -/

/-- A defined pair finds its own form: no two forms share mnemonic and mode. -/
theorem lutForm_of_mnemonic {f : Form} {m : Mnemonic} (h : f.mnemonic = some m) :
    lutForm m.name f.mode = some f := by
  cases f <;> cases h <;> rfl

/-- What the table finds is a form of that name and mode. -/
theorem exists_mnemonic_of_lutForm {name : List Char} {mode : Mode} {f : Form}
    (h : lutForm name mode = some f) : ∃ m, f.mnemonic = some m ∧ f.mode = mode ∧ m.name = name := by
  have hrow := List.find?_some h
  simp only [Bool.and_eq_true, beq_iff_eq, Option.map_eq_some_iff] at hrow
  obtain ⟨⟨m, hm, hname⟩, hmode⟩ := hrow
  exact ⟨m, hm, hmode, hname⟩

theorem opcodeOf_of_lutForm {c : EncodingParams} {name : List Char} {mode : Mode} {f : Form}
    (h : lutForm name mode = some f) : opcodeOf c name mode = c.opc f := by
  rw [opcodeOf, h]

/-- Settles O22: a defined pair is found, and whatever is found is a defined pair. -/
theorem lutGivesOpcodeOrDefault : Obligations.LutGivesOpcodeOrDefault := by
  refine fun c name mode => ⟨fun f m hm hmode hname => ?defined, fun hnone => ?other⟩
  case defined =>
    subst hmode hname
    exact opcodeOf_of_lutForm (lutForm_of_mnemonic hm)
  case other =>
    cases h : lutForm name mode with
    | none => rw [opcodeOf, h]
    | some f =>
      obtain ⟨m, hm, hmode, hname⟩ := exists_mnemonic_of_lutForm h
      exact absurd hname (hnone f m hm hmode)

end Sys2Proof.Machine
end

section
/-! The shared operations and the parts of the state they leave alone (10_state.md R33 to R48; 20_memory.md
R97). Each lemma is one case split over `Made`, the list of all that `exec` can do; what is claimed of the
flags, the inert registers, memory and `halted` is read off these. -/

namespace Sys2Proof.Machine

variable {i : Instr} {s t : State}

/-- A frame may be widened. -/
theorem RegsKeptBut.mono {but but' : List Reg} (h : RegsKeptBut but s t) (hsub : but ⊆ but') :
    RegsKeptBut but' s t := fun r hr => h r fun hin => hr (hsub hin)

theorem acc_reg_mem (r : Acc) : r.reg ∈ [Reg.a, Reg.b, Reg.x] := by cases r <;> decide

/-- An instruction writes no register but A, B and X (R33, R47, R48). -/
theorem Made.regs (h : Made i s t) : RegsKeptBut [.a, .b, .x] s t := by
  have hacc (r : Acc) : [r.reg] ⊆ [Reg.a, .b, .x] :=
    List.cons_subset.mpr ⟨acc_reg_mem r, List.nil_subset _⟩
  cases h with
  | loadAcc r m => exact (loadAcc_spec r m _ s).regs.mono (hacc r)
  | loadX v => exact (loadX_spec v _ s).regs.mono (by decide)
  | addAcc r m => exact (addAcc_spec r m _ s).regs.mono (hacc r)
  | subAcc r m => exact (subAcc_spec r m _ s).regs.mono (hacc r)
  | incAcc r => exact (incAcc_spec r _ s).regs.mono (hacc r)
  | decAcc r => exact (decAcc_spec r _ s).regs.mono (hacc r)
  | storeAcc | storeX | branch | nop | endSentinel =>
    exact (regsKeptBut_nil (by simp) (by simp) (by simp) (by simp) (by simp) (by simp)
      (by simp)).mono (List.nil_subset _)

/-- A flag is written only by the instructions that R39 to R42 name for it. -/
theorem Made.flag_eq (h : Made i s t) {g : Flag} (hnz : g = .n ∨ g = .z → i.form.writesNZ = false)
    (hc : g = .c → i.form.writesCarry = false) : t.flag g = s.flag g := by
  have hnotNZ (hwrites : i.form.writesNZ = true) : g ≠ .n ∧ g ≠ .z :=
    not_or.mp fun hg => Bool.false_ne_true ((hnz hg).symm.trans hwrites)
  have hnotC (hwrites : i.form.writesCarry = true) : g ≠ .c :=
    fun hg => Bool.false_ne_true ((hc hg).symm.trans hwrites)
  cases h with
  | loadAcc r m hw => exact (loadAcc_spec r m _ s).flags g (by simp [hnotNZ hw])
  | loadX v hw => exact (loadX_spec v _ s).flags g (by simp [hnotNZ hw])
  | addAcc r m hwc hw => exact (addAcc_spec r m _ s).flags g (by simp [hnotNZ hw, hnotC hwc])
  | subAcc r m hwc hw => exact (subAcc_spec r m _ s).flags g (by simp [hnotNZ hw, hnotC hwc])
  | incAcc r hw => exact (incAcc_spec r _ s).flags g (by simp [hnotNZ hw])
  | decAcc r hw => exact (decAcc_spec r _ s).flags g (by simp [hnotNZ hw])
  | storeAcc | storeX | branch | nop | endSentinel => simp [State.flag]

/-- Only a store writes memory (R97). -/
theorem Made.mem_eq (h : Made i s t) (hstore : i.form.isStore = false) : t.mem = s.mem := by
  cases h with
  | storeAcc r ea hs => exact absurd (hstore.symm.trans hs) Bool.false_ne_true
  | storeX ea hs => exact absurd (hstore.symm.trans hs) Bool.false_ne_true
  | loadAcc | loadX | branch | nop | endSentinel => simp
  | addAcc | subAcc | incAcc | decAcc => exact writeAlu_mem ..

/-- Of the instructions only the END sentinel touches `halted` (R53). -/
theorem Made.halted_eq (h : Made i s t) (hne : i ≠ .endSentinel) : t.halted = s.halted := by
  cases h with
  | endSentinel hi => exact absurd hi hne
  | loadAcc | loadX | storeAcc | storeX | branch | nop => simp
  | addAcc | subAcc | incAcc | decAcc => exact writeAlu_halted ..

/-- Settles O29: the flags of the new state by `Made.flag_eq`; N and Z are not C. -/
theorem eachFlagIsWrittenOnlyByItsInstructions : Obligations.EachFlagIsWrittenOnlyByItsInstructions := by
  intro i s t hexec
  have hmade := made_of_exec hexec
  exact ⟨fun hnz => ⟨hmade.flag_eq (fun _ => hnz) nofun, hmade.flag_eq (fun _ => hnz) nofun⟩,
    fun hc => hmade.flag_eq nofun fun _ => hc⟩

/-! ## The inert state -/

/-- The registers DP, Y, S and U and the flags E, F, H, I and V are unchanged (R33, R35 to R38, R41, R47,
R48). -/
structure InertKept (s t : State) : Prop where
  regs : RegsKeptBut [.a, .b, .x] s t
  flags : FlagsKeptBut [.n, .z, .c] s t

theorem InertKept.refl (s : State) : InertKept s s := ⟨fun _ _ => rfl, fun _ _ => rfl⟩

/-- Zero extension loses nothing. -/
theorem zext16_inj {b b' : Byte} (h : zext16 b = zext16 b') : b = b' :=
  BitVec.eq_of_toNat_eq (by rw [← toNat_zext16, h, toNat_zext16])

theorem InertKept.dp (h : InertKept s t) : t.dp = s.dp := zext16_inj (h.regs .dp (by decide))

theorem InertKept.y (h : InertKept s t) : t.y = s.y := h.regs .y (by decide)

theorem InertKept.sp (h : InertKept s t) : t.s = s.s := h.regs .s (by decide)

theorem InertKept.u (h : InertKept s t) : t.u = s.u := h.regs .u (by decide)

theorem Made.inertKept (h : Made i s t) : InertKept s t where
  regs := h.regs
  flags := fun g hg => by
    simp only [List.mem_cons, List.not_mem_nil, or_false, not_or] at hg
    obtain ⟨hn, hz, hc⟩ := hg
    exact h.flag_eq (fun hnz => (hnz.elim hn hz).elim) fun hgc => absurd hgc hc

theorem stepWith_inertKept {c : EncodingParams} (h : stepWith c s = .next t) : InertKept s t := by
  obtain ⟨-, rfl⟩ | ⟨-, i, -, hexec⟩ | ⟨-, op, -, rfl⟩ := stepWith_cases h
  · exact .refl _
  · exact (made_of_exec hexec).inertKept
  · have hspec := halt_spec s
    exact ⟨hspec.regs.mono (List.nil_subset _), fun g _ => hspec.flags g List.not_mem_nil⟩

/-- Settles O30: an instruction writes only A, B, X, N, Z and C besides PC, `halted` and memory. -/
theorem stepNeverWritesTheInertState : Obligations.StepNeverWritesTheInertState := by
  intro c s t hstep
  have h := stepWith_inertKept hstep
  exact ⟨h.dp, h.y, h.sp, h.u, h.flags .e (by decide), h.flags .f (by decide), h.flags .h (by decide),
    h.flags .i (by decide), h.flags .v (by decide)⟩

end Sys2Proof.Machine
end

section
/-! The invariant (10_state.md R33 to R48; 20_memory.md R74). It speaks of the inert state, which no step
writes, and of two properties of memory, which byte writes keep. `Run` leaves the state that as many
steps leave, so that of the host's operations only a step, a load and the resets need an argument. -/

namespace Sys2Proof.Machine

/-- Byte writes keep the canonical form. -/
theorem ByWrites.wf {m m' : Memory} (h : ByWrites m m') (hm : m.wf = true) : m'.wf = true := by
  induction h with
  | refl => exact hm
  | tail _ hw ih =>
    obtain ⟨b, v, rfl⟩ := hw
    exact wf_write ih b v

/-- The invariant goes over to a state with the same inert state and a memory as good. -/
theorem State.Inv.of_inertKept {s t : State} (hs : s.Inv) (h : InertKept s t) (hwf : t.mem.wf = true)
    (hrom : t.mem.romIntact = true) : t.Inv where
  memory := hwf
  rom := hrom
  dp := h.dp.trans hs.dp
  y := h.y.trans hs.y
  s := h.sp.trans hs.s
  u := h.u.trans hs.u
  e := (h.flags .e (by decide)).trans hs.e
  f := (h.flags .f (by decide)).trans hs.f
  h := (h.flags .h (by decide)).trans hs.h
  i := (h.flags .i (by decide)).trans hs.i
  v := (h.flags .v (by decide)).trans hs.v

/-- … in particular to one whose memory comes from the old one by byte writes. -/
theorem State.Inv.of_byWrites {s t : State} (hs : s.Inv) (h : InertKept s t)
    (hmem : ByWrites s.mem t.mem) : t.Inv :=
  hs.of_inertKept h (hmem.wf hs.memory) (hmem.romIntact hs.rom)

/-! ## Steps and runs -/

theorem stepWith_inv {c : EncodingParams} {s t : State} (hs : s.Inv) (h : stepWith c s = .next t) :
    t.Inv := hs.of_byWrites (stepWith_inertKept h) (stepWith_byWrites h)

/-- Settles O33: the machine's step is the engine's under the default map. -/
theorem stepKeepsTheInvariant : Obligations.StepKeepsTheInvariant := fun s _ hs hstep =>
  stepWith_inv hs ((step_eq s).symm.trans hstep)

theorem stepOnce_inv (c : EncodingParams) {s : State} (hs : s.Inv) : (stepOnce c s).1.Inv := by
  unfold stepOnce
  split
  case h_1 t h => exact stepWith_inv hs h
  case h_2 => exact hs
  case h_3 => exact hs

theorem stepTimes_inv (c : EncodingParams) (n : Nat) {s : State} (hs : s.Inv) :
    (stepTimes c n s).Inv := by
  induction n generalizing s with
  | zero => exact hs
  | succ n ih => exact ih (stepOnce_inv c hs)

/-- With fuel left, `Run` of a RUNNING engine steps and goes on (R264). -/
theorem runFor_succ_of_running (c : EncodingParams) (n : Nat) {s : State} (h : s.halted = false) :
    runFor c (n + 1) s = runFor c n (stepOnce c s).1 := if_neg (Bool.eq_false_iff.mp h)

/-- Without fuel `Run` returns only a HALTED engine. -/
theorem runFor_zero_of_running (c : EncodingParams) {s : State} (h : s.halted = false) :
    runFor c 0 s = none := if_neg (Bool.eq_false_iff.mp h)

/-- What `Run` returns is HALTED, is the state after that many steps, and is returned with more fuel too
(R264). -/
theorem runFor_eq_some {c : EncodingParams} {n : Nat} {s t : State} (h : runFor c n s = some t) :
    t.halted = true ∧ stepTimes c n s = t ∧ ∀ m, n ≤ m → runFor c m s = some t := by
  induction n generalizing s with
  | zero =>
    cases hs : s.halted with
    | true =>
      cases (runFor_of_halted c 0 hs).symm.trans h
      exact ⟨hs, rfl, fun m _ => runFor_of_halted c m hs⟩
    | false => cases (runFor_zero_of_running c hs).symm.trans h
  | succ n ih =>
    cases hs : s.halted with
    | true =>
      cases (runFor_of_halted c (n + 1) hs).symm.trans h
      exact ⟨hs, stepTimes_of_halted c (n + 1) hs, fun m _ => runFor_of_halted c m hs⟩
    | false =>
      rw [runFor_succ_of_running c n hs] at h
      obtain ⟨ht, hsteps, hmore⟩ := ih h
      refine ⟨ht, hsteps, fun m hm => ?_⟩
      obtain ⟨m, rfl⟩ := Nat.exists_eq_add_of_le' (Nat.one_le_of_lt hm)
      rw [runFor_succ_of_running c m hs]
      exact hmore m (Nat.le_of_succ_le_succ hm)

/-- `Run` returns whenever that many steps halt the engine (R264). -/
theorem runFor_of_stepTimes_halted {c : EncodingParams} {n : Nat} {s : State}
    (h : (stepTimes c n s).halted = true) : runFor c n s = some (stepTimes c n s) := by
  induction n generalizing s with
  | zero => exact runFor_of_halted c 0 h
  | succ n ih =>
    cases hs : s.halted with
    | true => rw [runFor_of_halted c (n + 1) hs, stepTimes_of_halted c (n + 1) hs]
    | false =>
      rw [runFor_succ_of_running c n hs]
      exact ih h

/-- Settles O53: what a returning `Run` returns, and that it returns. -/
theorem runEndsOnlyHaltedAndIndependentOfFuel : Obligations.RunEndsOnlyHaltedAndIndependentOfFuel :=
  fun _ _ _ => ⟨fun _ => runFor_eq_some, runFor_of_stepTimes_halted⟩

/-- `Run` under fuel leaves the state after that many steps, whether or not it returned. -/
theorem hostPerform_run (k : Params) (fuel : Nat) (s : State) :
    (hostPerform k (.run fuel) s).1 = stepTimes k.encoding fuel s := by
  simp only [hostPerform]
  split
  case h_1 t h =>
    obtain ⟨-, hsteps, -⟩ := runFor_eq_some h
    exact hsteps.symm
  case h_2 => rfl

/-! ## Loads and resets -/

theorem performLoad_inv (c : EncodingParams) (p : Program) {s : State} (hs : s.Inv) :
    (performLoad c p s).1.Inv := by
  unfold performLoad
  split
  case h_1 t h =>
    obtain ⟨-, rfl⟩ := loadProgramWith_eq_ok.mp h
    exact hs.of_byWrites ⟨fun _ _ => rfl, fun _ _ => rfl⟩ (loadRecords_byWrites c s.mem 0 p)
  case h_2 => exact hs

/-- In the default of CC only I is set (R55). -/
theorem flagOf_defaultCC (g : Flag) : flagOf g 0x10 = decide (g = .i) := by
  cases g <;> decide

/-- `ProcReset` gives the inert state its values whatever they were (R55, R310). -/
theorem procReset_inv {s : State} (hwf : s.mem.wf = true) (hrom : s.mem.romIntact = true) :
    (procReset s).Inv where
  memory := hwf
  rom := hrom
  dp := rfl
  y := rfl
  s := rfl
  u := rfl
  e := flagOf_defaultCC .e
  f := flagOf_defaultCC .f
  h := flagOf_defaultCC .h
  i := flagOf_defaultCC .i
  v := flagOf_defaultCC .v

/-- `MemReset` touches no register and no flag (R86, R311). -/
theorem memReset_inv {s : State} (hs : s.Inv) : (memReset s).Inv :=
  hs.of_inertKept ⟨fun _ _ => rfl, fun _ _ => rfl⟩ wf_afterReset romIntact_afterReset

/-- `PowerOn` is the two resets (R312), whatever the state was. -/
theorem powerOn_inv (s : State) : (powerOn s).Inv :=
  procReset_inv (s := memReset s) wf_afterReset romIntact_afterReset

theorem reset_inv : State.reset.Inv := powerOn_eq_reset State.reset ▸ powerOn_inv State.reset

/-- Settles O32: the reset state is what `PowerOn` gives. -/
theorem resetSatisfiesTheInvariant : Obligations.ResetSatisfiesTheInvariant := reset_inv

theorem hostPerform_inv (k : Params) (op : HostOp) {s : State} (hs : s.Inv) :
    (hostPerform k op s).1.Inv := by
  cases op with
  | powerOn => exact powerOn_inv s
  | memReset => exact memReset_inv hs
  | procReset => exact procReset_inv hs.memory hs.rom
  | snapshot | readByte => exact hs
  | assemble text =>
    simp only [hostPerform]
    split <;> exact hs
  | load p => exact performLoad_inv k.encoding p hs
  | assembleAndLoad text =>
    simp only [hostPerform]
    split
    · exact performLoad_inv k.encoding _ hs
    · exact hs
  | step => exact stepOnce_inv k.encoding hs
  | run fuel => exact hostPerform_run k fuel s ▸ stepTimes_inv k.encoding fuel hs

/-- Settles O35: the reset state, and one operation at a time. -/
theorem everyHostOperationKeepsTheInvariant : Obligations.EveryHostOperationKeepsTheInvariant :=
  ⟨reset_inv, fun k op _ => hostPerform_inv k op⟩

/-- Settles O34: by induction on the operations that led to the state. -/
theorem reachableStatesSatisfyTheInvariant : Obligations.ReachableStatesSatisfyTheInvariant := by
  intro k s hs
  induction hs with
  | powerOn => exact reset_inv
  | perform op _ ih => exact hostPerform_inv k op ih

end Sys2Proof.Machine
end

section
/-! Records and the engine (20_memory.md R93 to R96; 30_encoding.md R117, R121). A recognised record's bytes are
its instruction's encoding, the loader puts them at the record's address, and an engine that reads an
encoding from PC on executes that instruction. -/

namespace Sys2Proof.Machine

/-- The encoding of what a form builds is its opcode and that instruction's operand bytes. -/
theorem encodeWith_build (c : EncodingParams) (f : Form) (b1 b2 : Byte) :
    encodeWith c (f.build b1 b2) = c.opc f :: (f.build b1 b2).operand.bytes := by
  rw [encodeWith, form_build]

/-- Settles O52: by the mode, whose size says which operand bytes the form reads. -/
theorem recordBytesAreTheInstructionsEncoding : Obligations.RecordBytesAreTheInstructionsEncoding := by
  intro c ⟨mnemonic, mode, operand⟩ i h
  cases hlut : lutForm mnemonic mode with
  | none => simp [recordInstr, hlut] at h
  | some f =>
    obtain ⟨-, -, hmode, -⟩ := exists_mnemonic_of_lutForm hlut
    have hopcode : opcodeOf c mnemonic mode = c.opc f := opcodeOf_of_lutForm hlut
    have hsize : f.size = mode.size := congrArg Mode.size hmode
    rw [recordBytesWith, Record.opcode, hopcode]
    cases mode with
    | inherent =>
      obtain rfl : f.build (BitVec.ofNat 8 operand) 0 = i := by simpa [recordInstr, hlut] using h
      rw [encodeWith_build, operandBytes_size1 hsize]
      rfl
    | immediate =>
      obtain rfl : f.build (BitVec.ofNat 8 operand) 0 = i := by simpa [recordInstr, hlut] using h
      rw [encodeWith_build, operandBytes_size2 hsize]
      rfl
    | direct =>
      obtain rfl : f.build (BitVec.ofNat 8 operand) 0 = i := by simpa [recordInstr, hlut] using h
      rw [encodeWith_build, operandBytes_size2 hsize]
      rfl
    | extended =>
      obtain rfl : f.build (BitVec.ofNat 8 (operand / 0x100)) (BitVec.ofNat 8 operand) = i := by
        simpa [recordInstr, hlut] using h
      rw [encodeWith_build, operandBytes_size3 hsize]
      rfl

/-! ## The engine at a loaded record -/

/-- An engine that reads an instruction's encoding from PC on executes it, under a legal map. -/
theorem stepWith_of_encodeWith {c : EncodingParams} (hc : c.legal = true) {s : State} {i : Instr}
    (hrun : s.halted = false)
    (hbytes : ∀ k v, (encodeWith c i)[k]? = some v → s.memRead (s.pc + BitVec.ofNat 16 k) = v) :
    stepWith c s = exec i s := by
  refine stepWith_eq_exec hrun (decodeWith_of_encodeWith_prefix hc ?_)
  refine List.prefix_iff_getElem?.mpr fun k hk => ?_
  have hread := hbytes k _ (List.getElem?_eq_getElem hk)
  have hshort : k < 3 := by
    have hlength := length_encodeWith c i
    obtain hsize | hsize | hsize := form_size_cases i.form <;> rw [Form.size] at hsize <;> omega
  rw [← hread]
  interval_cases k
  · simp
  · rfl
  · rfl

/-- The bytes of a record stand in the program's bytes at the total size of the records before it (R93). -/
theorem programBytesWith_getElem? (c : EncodingParams) (before after : Program) (r : Record) {k : Nat}
    {v : Byte} (h : (recordBytesWith c r)[k]? = some v) :
    (programBytesWith c (before ++ r :: after))[Program.size before + k]? = some v := by
  have hsplit : programBytesWith c (before ++ r :: after) =
      programBytesWith c before ++ (recordBytesWith c r ++ programBytesWith c after) := by
    simp [programBytesWith]
  obtain ⟨hk, -⟩ := List.getElem?_eq_some_iff.mp h
  rw [hsplit, ← length_programBytesWith c before, List.getElem?_append_right (Nat.le_add_right ..),
    Nat.add_sub_cancel_left, List.getElem?_append_left hk, h]

/-- Settles O51: PC is where the loader put the record's bytes, which are the encoding that the engine reads
there; the loader's bound keeps the addresses from wrapping. -/
theorem loadedProgramRunsRecordByRecord : Obligations.LoadedProgramRunsRecordByRecord := by
  intro c before after r i s t u hc hm hload hinstr hmem hrun hpc
  refine stepWith_of_encodeWith hc hrun fun k v hv => ?_
  rw [← recordBytesAreTheInstructionsEncoding c r i hinstr] at hv
  have hbyte := programBytesWith_getElem? c before after r hv
  obtain ⟨hsize, -⟩ := loadProgramWith_eq_ok.mp hload
  obtain ⟨hlt, -⟩ := List.getElem?_eq_some_iff.mp hbyte
  rw [length_programBytesWith] at hlt
  have haddr : (u.pc + BitVec.ofNat 16 k).toNat = Program.size before + k := by
    rw [hpc, ← BitVec.ofNat_add, BitVec.toNat_ofNat]
    omega
  rw [memRead_of_mem_eq hmem, memRead_of_loadProgramWith hm hload, haddr, hbyte, Option.getD_some]

/-! ## What a load leaves alone -/

/-- Bytes written below 0x8000 leave the addresses behind them, in any memory. -/
theorem read_writeBytes_of_le (m : Memory) {cursor : Nat} {vs : List Byte} {a : Word}
    (hfit : cursor + vs.length ≤ 0x8000) (ha : cursor + vs.length ≤ a.toNat) :
    (writeBytes m cursor vs).read a = m.read a := by
  induction vs generalizing m cursor with
  | nil => rfl
  | cons v vs ih =>
    rw [List.length_cons] at hfit ha
    have hne : a ≠ maskAddr cursor := by
      rintro rfl
      simp only [maskAddr, BitVec.toNat_ofNat] at ha
      omega
    rw [writeBytes, ih _ (by omega) (by omega), read_write_ne m v hne]

/-- Settles O50: a load replaces the memory field by byte writes from 0x0000 on, and the loader's bound is
the one premise of it. -/
theorem loadTouchesOnlyTheProgramsBytes : Obligations.LoadTouchesOnlyTheProgramsBytes := by
  refine fun c p s => ⟨fun hsize => ?loads, fun hsize => ?refused⟩
  case loads =>
    refine ⟨_, loadProgramWith_eq_ok.mpr ⟨hsize, rfl⟩, rfl, fun a ha => ?_⟩
    simp only [State.memRead, loadRecords_eq_writeBytes]
    apply read_writeBytes_of_le <;> rw [length_programBytesWith] <;> omega
  case refused =>
    have hfits : Program.fits p = false := decide_eq_false (by omega)
    simp [loadProgramWith, hfits]

end Sys2Proof.Machine
end

section
/-! Reads and writes at an address (20_memory.md R72 to R80), and the canonical form: a canonical memory lists
exactly the cells that read otherwise than `MemReset` leaves them, in the order of their keys. -/

namespace Sys2Proof.Machine

/-- What every address reads after a byte write into a canonical memory (R76, R77). -/
theorem read_write {m : Memory} (hm : m.wf = true) (a a' : Word) (v : Byte) :
    (m.write a v).read a' = if a' = a ∧ a.toNat < 0x8000 then v else m.read a' := by
  by_cases h : a' = a
  · rw [h, read_write_self hm]
    simp
  · rw [read_write_ne m v h, if_neg fun hand => h hand.1]

/-- Settles O9: the law `read_write`, on the state's memory. -/
theorem readAfterWrite : Obligations.ReadAfterWrite := fun _ a a' v hm => read_write hm a a' v

/-- `v[15:8]` (R13). -/
theorem hiByte_eq_extractLsb' (v : Word) : hiByte v = v.extractLsb' 8 8 := rfl

/-- `v[7:0]` is the extract from bit 0 on (R13). -/
theorem loByte_eq_extractLsb' (v : Word) : loByte v = v.extractLsb' 0 8 :=
  BitVec.setWidth_eq_extractLsb' (by decide)

/-- Settles O10: the law `read_write` for each of the two writes; their addresses differ. -/
theorem sixteenBitWriteIsTwoByteWritesHighFirst : Obligations.SixteenBitWriteIsTwoByteWritesHighFirst := by
  intro s a v a' hm
  have hwrites : (s.memWrite16 a v).memRead a' =
      if a' = a + 1 ∧ (a + 1).toNat < 0x8000 then loByte v
      else if a' = a ∧ a.toNat < 0x8000 then hiByte v else s.memRead a' := by
    simp only [State.memRead, memWrite16_mem, Memory.write16, read_write (wf_write hm _ _), read_write hm]
  rw [hwrites, hiByte_eq_extractLsb', loByte_eq_extractLsb']
  obtain rfl | h := eq_or_ne a' a
  · simp
  · simp [h]

/-- Keys that rise are sorted strictly. -/
theorem pairwise_of_rising {m : Memory} (h : m.rising = true) : m.Pairwise fun c d => c.1 < d.1 := by
  induction m with
  | nil => exact .nil
  | cons c m ih =>
    simp only [Memory.rising, Bool.and_eq_true, List.all_eq_true, decide_eq_true_eq] at h
    obtain ⟨hhead, htail⟩ := h
    exact .cons hhead (ih htail)

/-- A canonical memory lists the cells that hold another byte than `MemReset` leaves there. -/
theorem mem_iff_of_wf {m : Memory} (hm : m.wf = true) {c : Host.Cell} :
    c ∈ m ↔ c.1 < 0x10000 ∧ m.peek c.1 = c.2 ∧ c.2 ≠ Memory.resetByte c.1 := by
  obtain ⟨hrising, hcells⟩ := wf_iff.mp hm
  constructor
  · intro hc
    obtain ⟨hkey, hbyte⟩ := hcells c hc
    exact ⟨hkey, peek_of_mem hrising hc, hbyte⟩
  · rintro ⟨-, hpeek, hbyte⟩
    obtain ⟨d, hd, hkey⟩ : ∃ d ∈ m, d.1 = c.1 := by
      by_contra hnone
      push Not at hnone
      exact hbyte (hpeek ▸ peek_of_not_listed hnone)
    have hsame : d.2 = c.2 := by rw [← peek_of_mem hrising hd, hkey, hpeek]
    exact Prod.ext hkey hsame ▸ hd

/-- Settles O11: by `mem_iff_of_wf` the two lists have the same cells, and both are sorted by key. -/
theorem canonicalMemoriesThatReadAlikeAreEqual : Obligations.CanonicalMemoriesThatReadAlikeAreEqual := by
  intro m m' hm hm' hread
  have hsorted := pairwise_of_rising (rising_of_wf hm)
  have hsorted' := pairwise_of_rising (rising_of_wf hm')
  have hpeek {k : Nat} (hk : k < 0x10000) : m.peek k = m'.peek k := by
    have hkey : (BitVec.ofNat 16 k : Word).toNat = k := by rw [BitVec.toNat_ofNat]; omega
    rw [← hkey, ← read_eq_peek, ← read_eq_peek, hread]
  have hcells (c : Host.Cell) : c ∈ m ↔ c ∈ m' := by
    rw [mem_iff_of_wf hm, mem_iff_of_wf hm']
    exact and_congr_right fun hk => by rw [hpeek hk]
  have hnodup {l : Memory} (h : l.Pairwise fun c d => c.1 < d.1) : l.Nodup :=
    h.imp fun hlt heq => (heq ▸ hlt).false
  exact List.Perm.eq_of_pairwise (fun c d _ _ hlt hgt => absurd hgt (Nat.lt_asymm hlt)) hsorted hsorted'
    ((List.perm_ext_iff_of_nodup (hnodup hsorted) (hnodup hsorted')).mpr hcells)

end Sys2Proof.Machine
end

section
/-! One step of the engine (43_control.md R260 to R265, R286). A running engine executes what the bytes at PC
decode to, or stops at a byte that is no opcode; every form of the claim is one of these two equations. -/

namespace Sys2Proof.Machine

/-! ## The two ways a running engine steps -/

theorem fetchDecode_of_invalid {c : EncodingParams} {s : State} (h : ∀ f, c.opc f ≠ s.memRead s.pc) :
    fetchDecode c s = .error (.invalidOpcode (s.memRead s.pc)) := by
  rw [fetchDecode_eq, decodeWith_of_formOf_none (formOf_eq_none_iff.mpr h)]

/-- The opcode byte's form is what the fetch decodes, under a legal map. -/
theorem fetchDecode_of_opc {c : EncodingParams} (hc : c.legal = true) {s : State} {f : Form}
    (h : c.opc f = s.memRead s.pc) :
    fetchDecode c s = .ok (f.build (s.memRead (s.pc + 1)) (s.memRead (s.pc + 2))) := by
  rw [fetchDecode_eq, ← h, decodeWith_of_formOf (formOf_opc hc f)]

/-- The fail-stop (R263, R286). -/
theorem stepWith_of_invalid {c : EncodingParams} {s : State} (hrun : s.halted = false)
    (h : ∀ f, c.opc f ≠ s.memRead s.pc) : stepWith c s = .next (halt (s.advance 1)) := by
  simp only [stepWith, hrun, Bool.false_eq_true, if_false, fetchDecode_of_invalid h]
  rfl

/-- Settles O25: the fail-stop is a halt past one byte. -/
theorem invalidOpcodeIsAFailStop : Obligations.InvalidOpcodeIsAFailStop := fun _ s hrun h =>
  ⟨_, stepWith_of_invalid hrun h, halt_spec s⟩

/-- Settles O23: the law `stepWith_eq_exec` under the default map. -/
theorem stepRunsTheDecodedInstruction : Obligations.StepRunsTheDecodedInstruction := fun s _ hrun hdec =>
  (step_eq s).trans (stepWith_eq_exec hrun hdec)

/-- Settles O26: HALTED, an instruction, and an invalid opcode each have a next state. -/
theorem stepAlwaysEndsInANextState : Obligations.StepAlwaysEndsInANextState := by
  intro c s
  unfold stepWith
  split
  · exact ⟨s, rfl⟩
  · split
    case h_1 i _ =>
      obtain ⟨t, hexec, -⟩ := exec_made i s
      exact ⟨t, hexec⟩
    case h_2 => exact ⟨_, rfl⟩

theorem legal_defaultParams : defaultParams.legal = true := by decide

/-- Settles O56: the two equations of a running engine, and the identity of a HALTED one. -/
theorem everyOpcodeMapDrivesTheEngine : Obligations.EveryOpcodeMapDrivesTheEngine := by
  refine ⟨fun c s => ⟨fun hc hrun f hf => ?instruction, invalidOpcodeIsAFailStop c s,
    stepWith_of_halted c⟩, step_eq, legal_defaultParams⟩
  case instruction =>
    have hdec := fetchDecode_of_opc hc hf
    rw [fetchDecode_eq] at hdec
    exact stepWith_eq_exec hrun hdec

/-! ## Halting -/

/-- What a fetch decodes begins with its opcode byte. -/
theorem opc_of_fetchDecode {c : EncodingParams} {s : State} {i : Instr} (h : fetchDecode c s = .ok i) :
    c.opc i.form = s.memRead s.pc := by
  rw [fetchDecode_eq] at h
  obtain ⟨hform, -⟩ := decodeWith_eq_ok_iff.mp h
  exact opc_of_formOf hform

theorem invalid_of_fetchDecode {c : EncodingParams} {s : State} {op : Byte}
    (h : fetchDecode c s = .error (.invalidOpcode op)) : ∀ f, c.opc f ≠ s.memRead s.pc := by
  cases hf : formOf c (s.memRead s.pc) with
  | none => exact formOf_eq_none_iff.mp hf
  | some f =>
    rw [fetchDecode_eq, decodeWith_of_formOf hf] at h
    cases h

/-- The END sentinel is the one instruction of its form. -/
theorem form_eq_endSentinel_iff {i : Instr} : i.form = .endSentinel ↔ i = .endSentinel := by
  cases i <;> simp [Instr.form]

/-- A legal map gives no two forms one byte. -/
theorem opc_injective {c : EncodingParams} (hc : c.legal = true) {f g : Form} (h : c.opc f = c.opc g) :
    f = g := by
  have hf := formOf_opc hc f
  rw [h, formOf_opc hc g] at hf
  exact (Option.some.inj hf).symm

/-- An instruction halts a running engine exactly if it is the END sentinel (R53, R262). -/
theorem exec_halted_iff {i : Instr} {s t : State} (hrun : s.halted = false) (h : exec i s = .next t) :
    t.halted = true ↔ i = .endSentinel := by
  by_cases hi : i = .endSentinel
  · subst hi
    cases h
    simp
  · simp [(made_of_exec h).halted_eq hi, hrun, hi]

/-- Settles O27: an instruction halts only if it is the sentinel, whose byte is no other's; an invalid opcode
always halts. -/
theorem engineHaltsOnlyAtSentinelOrInvalidOpcode :
    Obligations.EngineHaltsOnlyAtSentinelOrInvalidOpcode := by
  intro c s t hc hrun hstep
  obtain ⟨hhalted, -⟩ | ⟨-, i, hfetch, hexec⟩ | ⟨-, op, hfetch, rfl⟩ := stepWith_cases hstep
  · exact absurd (hrun.symm.trans hhalted) Bool.false_ne_true
  · have hopc := opc_of_fetchDecode hfetch
    rw [exec_halted_iff hrun hexec, ← form_eq_endSentinel_iff]
    constructor
    · intro hform
      exact .inl (hform ▸ hopc.symm)
    · rintro (hsentinel | hinvalid)
      · exact opc_injective hc (hopc.trans hsentinel)
      · exact absurd hopc (hinvalid i.form)
  · exact iff_of_true (halt_halted _) (.inr (invalid_of_fetchDecode hfetch))

/-! ## Memory -/

/-- Settles O13: a step that executes no store keeps the memory field. -/
theorem onlyStoresChangeMemory : Obligations.OnlyStoresChangeMemory := by
  intro c s t hstep hstore
  obtain ⟨-, rfl⟩ | ⟨-, i, hfetch, hexec⟩ | ⟨-, op, -, rfl⟩ := stepWith_cases hstep
  · exact fun _ => rfl
  · rw [fetchDecode_eq] at hfetch
    exact memKept_of_mem ((made_of_exec hexec).mem_eq (hstore i hfetch))
  · exact (halt_spec s).memory

/-- After any store every address reads as `byteAfter` says (R77, R80, R90). -/
theorem memRead_of_store {i : Instr} {s t : State} (hm : s.mem.wf = true)
    (hstore : i.form.isStore = true) (h : exec i s = .next t) (p : Word) :
    t.memRead p = byteAfter i s p := by
  cases i with
  | staDir | staExt => cases h; exact read_of_stores8 (storeAcc_spec hm .a _ _) p
  | stbDir | stbExt => cases h; exact read_of_stores8 (storeAcc_spec hm .b _ _) p
  | stxDir | stxExt => cases h; exact read_of_stores16 (storeX_spec hm _ _) p
  | _ => cases hstore

/-- Settles O14: after the store the engine still runs, and it fetches the bytes that the store left. -/
theorem storeIsSeenByTheNextFetch : Obligations.StoreIsSeenByTheNextFetch := by
  intro c i s t hm hrun hstore hexec
  have hread := memRead_of_store hm hstore hexec
  have hne : i ≠ .endSentinel := by
    rintro rfl
    cases hstore
  have hstill : t.halted = false := ((made_of_exec hexec).halted_eq hne).trans hrun
  refine ⟨hread, fun j hdec => ?_, fun hinvalid => ?_⟩
  · rw [← hread, ← hread, ← hread] at hdec
    exact stepWith_eq_exec hstill hdec
  · rw [← hread] at hinvalid
    exact invalidOpcodeIsAFailStop c t hstill hinvalid

/-! ## The trace -/

theorem stepTrace_of_fetchDecode {c : EncodingParams} {s : State} {i : Instr} (hrun : s.halted = false)
    (h : fetchDecode c s = .ok i) : stepTrace c s = traceOf i s := by
  simp [stepTrace, hrun, h]

theorem stepTrace_of_invalid {c : EncodingParams} {s : State} (hrun : s.halted = false)
    (h : ∀ f, c.opc f ≠ s.memRead s.pc) : stepTrace c s = .invalid (s.memRead s.pc) := by
  simp [stepTrace, hrun, fetchDecode_of_invalid h]

/-- Only a branch has a branch's trace, and its step goes where the trace says (R240, R265). -/
theorem exec_of_traceOf_branch {i : Instr} {s : State} {m : Mnemonic} {off8 : Byte} {target : Word}
    {taken : Bool} (h : traceOf i s = .branch m off8 target taken) :
    target = branchTarget (s.pc + 2) off8 ∧ exec i s = .next (branchIf taken off8 (s.advance 2)) := by
  cases i with
  | bra | beq | bne => cases h; exact ⟨rfl, rfl⟩
  | _ => cases h

/-- Settles O55: the trace of a running engine is that of the instruction it executes, or names the invalid
byte. -/
theorem traceAgreesWithTheStep : Obligations.TraceAgreesWithTheStep := by
  refine ⟨fun c s t m off8 target taken htrace hstep => ?branch,
    fun c s hrun h => stepTrace_of_invalid hrun h, fun c s hc hrun hsentinel => ?sentinel⟩
  case branch =>
    obtain ⟨hhalted, -⟩ | ⟨hrun, i, hfetch, hexec⟩ | ⟨hrun, op, hfetch, -⟩ := stepWith_cases hstep
    · cases (stepTrace_of_halted c hhalted).symm.trans htrace
    · rw [stepTrace_of_fetchDecode hrun hfetch] at htrace
      obtain ⟨rfl, hbranch⟩ := exec_of_traceOf_branch htrace
      cases hbranch.symm.trans hexec
      exact ⟨rfl, (branchIf_spec taken off8 s).pc⟩
    · cases (stepTrace_of_invalid hrun (invalid_of_fetchDecode hfetch)).symm.trans htrace
  case sentinel => exact stepTrace_of_fetchDecode hrun (fetchDecode_of_opc hc hsentinel.symm)

end Sys2Proof.Machine
end

section
/-! No step reads the inert state (10_state.md R33 to R48). Each shared operation takes two states that agree on
the rest to two such states, if its operands agree; the operands come from memory, PC, A, B, X or a flag
that agrees. -/

namespace Sys2Proof.Machine

variable {s t : State}

theorem SameButInert.memRead (h : SameButInert s t) (a : Word) : s.memRead a = t.memRead a :=
  memRead_of_mem_eq h.mem a

theorem SameButInert.memRead16 (h : SameButInert s t) (a : Word) : s.memRead16 a = t.memRead16 a := by
  rw [State.memRead16, State.memRead16, h.mem]

theorem SameButInert.acc (h : SameButInert s t) (r : Acc) : s.acc r = t.acc r := by
  cases r with
  | a => exact h.a
  | b => exact h.b

theorem SameButInert.advance (h : SameButInert s t) (n : Nat) :
    SameButInert (s.advance n) (t.advance n) :=
  { h with pc := congrArg (· + BitVec.ofNat 16 n) h.pc }

theorem SameButInert.halt (h : SameButInert s t) : SameButInert (halt s) (halt t) :=
  { h with halted := rfl }

theorem SameButInert.branchIf (h : SameButInert s t) {taken taken' : Bool} (htaken : taken = taken')
    (off8 : Byte) : SameButInert (branchIf taken off8 s) (branchIf taken' off8 t) := by
  subst htaken
  cases taken with
  | false => exact h
  | true => exact { h with pc := congrArg (branchTarget · off8) h.pc }

theorem SameButInert.storeAcc (h : SameButInert s t) (r : Acc) (ea : Word) :
    SameButInert (storeAcc r ea s) (storeAcc r ea t) :=
  { h with mem := by rw [storeAcc_mem, storeAcc_mem, h.mem, h.acc r] }

theorem SameButInert.storeX (h : SameButInert s t) (ea : Word) :
    SameButInert (storeX ea s) (storeX ea t) :=
  { h with mem := by rw [storeX_mem, storeX_mem, h.mem, h.x] }

/-- Each flag after `UpdateNZ16` depends on that flag alone. -/
theorem SameButInert.loadX (h : SameButInert s t) {v v' : Word} (hv : v = v') :
    SameButInert (loadX v s) (loadX v' t) := by
  subst hv
  have hflag (g : Flag) (hg : s.flag g = t.flag g) :
      (Machine.loadX v s).flag g = (Machine.loadX v t).flag g := by
    simp only [State.flag, loadX_cc, flagOf_updateNZ16] at hg ⊢
    rw [hg]
  exact { h with x := rfl, n := hflag .n h.n, z := hflag .z h.z, c := hflag .c h.c }

/-- An ALU result of the same value whose flags each depend on that flag alone. -/
theorem SameButInert.writeAlu (h : SameButInert s t) (r : Acc) {res res' : AluResult}
    (hvalue : res.value = res'.value)
    (hflag : ∀ g, s.flag g = t.flag g → flagOf g res.cc = flagOf g res'.cc) :
    SameButInert (writeAlu r res s) (writeAlu r res' t) := by
  have hn := hflag .n h.n
  have hz := hflag .z h.z
  have hc := hflag .c h.c
  cases r with
  | a => exact { h with a := hvalue, n := hn, z := hz, c := hc }
  | b => exact { h with b := hvalue, n := hn, z := hz, c := hc }

theorem SameButInert.loadAcc (h : SameButInert s t) (r : Acc) {m m' : Byte} (hm : m = m') :
    SameButInert (loadAcc r m s) (loadAcc r m' t) := by
  subst hm
  refine h.writeAlu r (res := ⟨m, updateNZ8 m s.cc⟩) (res' := ⟨m, updateNZ8 m t.cc⟩) rfl fun g hg => ?_
  rw [State.flag, State.flag] at hg
  simp only [flagOf_updateNZ8, hg]

theorem SameButInert.addAcc (h : SameButInert s t) (r : Acc) {m m' : Byte} (hm : m = m') :
    SameButInert (addAcc r m s) (addAcc r m' t) := by
  subst hm
  refine h.writeAlu r (by rw [add8_value, add8_value, h.acc r]) fun g hg => ?_
  rw [State.flag, State.flag] at hg
  rw [flagOf_add8, flagOf_add8, h.acc r, hg]

theorem SameButInert.subAcc (h : SameButInert s t) (r : Acc) {m m' : Byte} (hm : m = m') :
    SameButInert (subAcc r m s) (subAcc r m' t) := by
  subst hm
  refine h.writeAlu r (by rw [sub8_value, sub8_value, h.acc r]) fun g hg => ?_
  rw [State.flag, State.flag] at hg
  rw [flagOf_sub8, flagOf_sub8, h.acc r, hg]

theorem SameButInert.incAcc (h : SameButInert s t) (r : Acc) :
    SameButInert (incAcc r s) (incAcc r t) := by
  refine h.writeAlu r (by rw [inc8_value, inc8_value, h.acc r]) fun g hg => ?_
  rw [State.flag, State.flag] at hg
  rw [flagOf_inc8, flagOf_inc8, h.acc r, hg]

theorem SameButInert.decAcc (h : SameButInert s t) (r : Acc) :
    SameButInert (decAcc r s) (decAcc r t) := by
  refine h.writeAlu r (by rw [dec8_value, dec8_value, h.acc r]) fun g hg => ?_
  rw [State.flag, State.flag] at hg
  rw [flagOf_dec8, flagOf_dec8, h.acc r, hg]

/-- Every instruction takes states that agree on all but the inert state to two such states. -/
theorem SameButInert.exec (h : SameButInert s t) {i : Instr} {s' t' : State} (hs : exec i s = .next s')
    (ht : exec i t = .next t') : SameButInert s' t' := by
  cases i <;> cases hs <;> cases ht
  case nop => exact h.advance 1
  case endSentinel => exact (h.advance 1).halt
  case bra off8 => exact (h.advance 2).branchIf rfl off8
  case beq off8 => exact (h.advance 2).branchIf h.z off8
  case bne off8 => exact (h.advance 2).branchIf (congrArg _ h.z) off8
  case inca | incb => exact (h.advance 1).incAcc _
  case deca | decb => exact (h.advance 1).decAcc _
  case ldaImm | ldbImm => exact (h.advance 2).loadAcc _ rfl
  case ldaDir | ldbDir => exact (h.advance 2).loadAcc _ (h.memRead _)
  case ldaExt | ldbExt => exact (h.advance 3).loadAcc _ (h.memRead _)
  case ldxImm => exact (h.advance 2).loadX rfl
  case ldxDir => exact (h.advance 2).loadX (h.memRead16 _)
  case ldxExt => exact (h.advance 3).loadX (h.memRead16 _)
  case staDir | stbDir => exact (h.advance 2).storeAcc _ _
  case staExt | stbExt => exact (h.advance 3).storeAcc _ _
  case stxDir => exact (h.advance 2).storeX _
  case stxExt => exact (h.advance 3).storeX _
  case addaImm | addbImm => exact (h.advance 2).addAcc _ rfl
  case addaDir | addbDir => exact (h.advance 2).addAcc _ (h.memRead _)
  case addaExt | addbExt => exact (h.advance 3).addAcc _ (h.memRead _)
  case subaImm | subbImm => exact (h.advance 2).subAcc _ rfl
  case subaDir | subbDir => exact (h.advance 2).subAcc _ (h.memRead _)
  case subaExt | subbExt => exact (h.advance 3).subAcc _ (h.memRead _)

/-- The two states fetch the same instruction. -/
theorem SameButInert.fetchDecode (h : SameButInert s t) (c : EncodingParams) :
    fetchDecode c s = fetchDecode c t := by
  rw [fetchDecode_eq, fetchDecode_eq, h.pc, h.memRead, h.memRead, h.memRead]

/-- Settles O31: the two states are both HALTED, or execute the same instruction, or stop at the same
byte. -/
theorem stepNeverReadsTheInertState : Obligations.StepNeverReadsTheInertState := by
  intro c s t s' t' h hs ht
  have hhalted := h.halted
  have hfetch := h.fetchDecode c
  obtain ⟨hstop, rfl⟩ | ⟨hrun, i, hi, hexec⟩ | ⟨hrun, op, hop, rfl⟩ := stepWith_cases hs
  · cases (stepWith_of_halted c (hhalted.symm.trans hstop)).symm.trans ht
    exact h
  · rw [hfetch, fetchDecode_eq] at hi
    exact h.exec hexec ((stepWith_eq_exec (hhalted.symm.trans hrun) hi).symm.trans ht)
  · have hinvalid := invalid_of_fetchDecode (hfetch.symm.trans hop)
    cases (stepWith_of_invalid (hhalted.symm.trans hrun) hinvalid).symm.trans ht
    exact (h.advance 1).halt

end Sys2Proof.Machine
end

section
/-! The instructions, one statement for each family (40_load_store.md, 41_arithmetic.md, 42_branch.md,
43_control.md). An instruction's meaning is one shared operation on the state past its fetch; that operation's
law in Laws/Ops.lean says all it does. -/

namespace Sys2Proof.Machine

/-- Settles O36: the law of an accumulator load, for each accumulator and operand. -/
theorem ldaAndLdbLoadTheirAccumulator : Obligations.LdaAndLdbLoadTheirAccumulator := fun s =>
  ⟨fun _ => ⟨_, rfl, loadAcc_spec .a _ 2 s⟩, fun _ => ⟨_, rfl, loadAcc_spec .a _ 2 s⟩,
    fun _ => ⟨_, rfl, loadAcc_spec .a _ 3 s⟩, fun _ => ⟨_, rfl, loadAcc_spec .b _ 2 s⟩,
    fun _ => ⟨_, rfl, loadAcc_spec .b _ 2 s⟩, fun _ => ⟨_, rfl, loadAcc_spec .b _ 3 s⟩⟩

/-- Settles O37: the law of an X load; `MemRead(addr, 2)` joins its two bytes high first. -/
theorem ldxLoadsX : Obligations.LdxLoadsX := fun s =>
  ⟨fun _ => ⟨_, rfl, loadX_spec _ 2 s⟩, fun _ => ⟨_, rfl, loadX_spec _ 2 s⟩,
    fun _ => ⟨_, rfl, loadX_spec _ 3 s⟩⟩

/-- Settles O38: the law of an accumulator store. -/
theorem staAndStbStoreTheirAccumulator : Obligations.StaAndStbStoreTheirAccumulator := fun _ hm =>
  ⟨fun _ => ⟨_, rfl, storeAcc_spec hm .a _ 2⟩, fun _ => ⟨_, rfl, storeAcc_spec hm .a _ 3⟩,
    fun _ => ⟨_, rfl, storeAcc_spec hm .b _ 2⟩, fun _ => ⟨_, rfl, storeAcc_spec hm .b _ 3⟩⟩

/-- Settles O39: the law of an X store. -/
theorem stxStoresX : Obligations.StxStoresX := fun _ hm =>
  ⟨fun _ => ⟨_, rfl, storeX_spec hm _ 2⟩, fun _ => ⟨_, rfl, storeX_spec hm _ 3⟩⟩

/-- Settles O40: the law of an addition. -/
theorem addaAndAddbAddToTheirAccumulator : Obligations.AddaAndAddbAddToTheirAccumulator := fun s =>
  ⟨fun _ => ⟨_, rfl, addAcc_spec .a _ 2 s⟩, fun _ => ⟨_, rfl, addAcc_spec .a _ 2 s⟩,
    fun _ => ⟨_, rfl, addAcc_spec .a _ 3 s⟩, fun _ => ⟨_, rfl, addAcc_spec .b _ 2 s⟩,
    fun _ => ⟨_, rfl, addAcc_spec .b _ 2 s⟩, fun _ => ⟨_, rfl, addAcc_spec .b _ 3 s⟩⟩

/-- Settles O41: the law of a subtraction. -/
theorem subaAndSubbSubtractFromTheirAccumulator : Obligations.SubaAndSubbSubtractFromTheirAccumulator :=
  fun s =>
    ⟨fun _ => ⟨_, rfl, subAcc_spec .a _ 2 s⟩, fun _ => ⟨_, rfl, subAcc_spec .a _ 2 s⟩,
      fun _ => ⟨_, rfl, subAcc_spec .a _ 3 s⟩, fun _ => ⟨_, rfl, subAcc_spec .b _ 2 s⟩,
      fun _ => ⟨_, rfl, subAcc_spec .b _ 2 s⟩, fun _ => ⟨_, rfl, subAcc_spec .b _ 3 s⟩⟩

/-- Settles O42: an increment or decrement leaves what a load of its result leaves, for it keeps C. -/
theorem incrementsAndDecrementsStepAnAccumulator :
    Obligations.IncrementsAndDecrementsStepAnAccumulator := fun s =>
  ⟨⟨_, rfl, incAcc_spec .a 1 s⟩, ⟨_, rfl, incAcc_spec .b 1 s⟩, ⟨_, rfl, decAcc_spec .a 1 s⟩,
    ⟨_, rfl, decAcc_spec .b 1 s⟩⟩

/-- Settles O43: a branch that is taken. -/
theorem braAlwaysBranches : Obligations.BraAlwaysBranches := fun s off8 =>
  ⟨_, rfl, branchIf_spec true off8 s⟩

/-- Settles O44: a branch that is taken as Z says. -/
theorem beqAndBneBranchOnZero : Obligations.BeqAndBneBranchOnZero := by
  refine fun s off8 => ⟨⟨_, rfl, branchIf_spec (s.flag .z) off8 s⟩, ⟨_, rfl, ?notEqual⟩⟩
  have htaken : (!s.flag .z) = true ↔ s.flag .z = false := by rw [Bool.not_eq_true']
  have hspec := branchIf_spec (!s.flag .z) off8 s
  simp only [htaken] at hspec
  exact hspec

/-- Settles O45: the advance of the PC, and the halt past one byte. -/
theorem nopAndEndSentinelMovePcByOne : Obligations.NopAndEndSentinelMovePcByOne := fun s =>
  ⟨⟨_, rfl, advance_spec 1 s⟩, ⟨_, rfl, halt_spec s⟩⟩

end Sys2Proof.Machine
end

section
/-! Fetches, power-on and the snapshot (10_state.md R50 to R58; 70_reset_and_hazards.md R312, R313), and the bits
of CC (R34). -/

namespace Sys2Proof.Machine

/-- The PC moves on by the sum of two advances (R52). -/
theorem advance_advance (s : State) (m n : Nat) : (s.advance m).advance n = s.advance (m + n) := by
  simp only [State.advance, BitVec.ofNat_add, BitVec.add_assoc]

/-- Settles O8: a fetch is a read at PC and an advance; a word fetch is two of them. -/
theorem fetchReadsAtPcAndAdvancesIt : Obligations.FetchReadsAtPcAndAdvancesIt := by
  refine fun s => ⟨rfl, advance_spec 1 s, fun hpc => ?wrap, rfl, ?word⟩
  case wrap =>
    have hnext : (fetchByte s).2.pc = s.pc + 1 := rfl
    rw [hnext, hpc]
    rfl
  case word =>
    have hnext : (fetchWord s).2 = s.advance 2 := advance_advance s 1 1
    exact hnext ▸ advance_spec 2 s

/-- Settles O48: `PowerOn` is the two resets; RAM then holds 0x00 at 0x0000, which is the sentinel. -/
theorem powerOnGivesTheResetState : Obligations.PowerOnGivesTheResetState := by
  refine ⟨powerOn_eq_reset, _, ?_, halt_spec State.reset⟩
  exact stepRunsTheDecodedInstruction State.reset .endSentinel rfl rfl

/-- Settles O54: the two operations answer at once, and D is the join of A and B. -/
theorem snapshotShowsAllAndChangesNothing : Obligations.SnapshotShowsAllAndChangesNothing := fun _ s _ =>
  ⟨rfl, rfl, rfl, rfl, toNat_joinBytes s.a s.b, rfl, rfl, rfl, rfl, rfl, rfl, rfl, rfl⟩

/-- A flag's mask is its bit's power of two. -/
theorem mask_eq_twoPow (g : Flag) : g.mask = BitVec.twoPow 8 g.bit := by cases g <;> rfl

/-- A flag reads true when CC and its mask have a bit in common (R34). -/
theorem flagOf_eq_decide_mask (g : Flag) (cc : Byte) : flagOf g cc = decide (cc &&& g.mask ≠ 0) := by
  have hmask : g.mask ≠ 0 := by cases g <;> decide
  rw [mask_eq_twoPow] at hmask ⊢
  rw [BitVec.and_twoPow, flagOf]
  cases cc.getLsbD g.bit with
  | false => rfl
  | true => simpa using hmask

/-- Settles O1: the law `flagOf_eq_decide_mask` with each flag's mask written out. -/
theorem ccHoldsEightFlagsAtTheirMasks : Obligations.CcHoldsEightFlagsAtTheirMasks := fun st =>
  ⟨flagOf_eq_decide_mask .e st.cc, flagOf_eq_decide_mask .f st.cc, flagOf_eq_decide_mask .h st.cc,
    flagOf_eq_decide_mask .i st.cc, flagOf_eq_decide_mask .n st.cc, flagOf_eq_decide_mask .z st.cc,
    flagOf_eq_decide_mask .v st.cc, flagOf_eq_decide_mask .c st.cc⟩

/-- A sum of two bytes that exceeds a byte and is 0 modulo 256 is 256. -/
theorem byte_sum_eq_256_iff (r m : Byte) :
    (r + m = 0 ∧ 0xFF < r.toNat + m.toNat) ↔ r.toNat + m.toNat = 256 := by
  have hzero : (0 : Byte).toNat = 0 := rfl
  rw [← BitVec.toNat_inj, BitVec.toNat_add, hzero]
  omega

/-- Settles O6: the values are those of byte arithmetic, and the flags follow from them. -/
theorem aluAlgebraicLaws : Obligations.AluAlgebraicLaws := by
  intro cc r m
  refine ⟨?difference, ?zero, ?borrow, ?incDec, ?decInc, ?subAdd, ?carryAndZero⟩
  case difference => rw [sub8_value, BitVec.sub_self]; rfl
  case zero => simp [flagOf_sub8]
  case borrow => simp [flagOf_sub8]
  case incDec => rw [inc8_value, dec8_value, BitVec.sub_add_cancel]
  case decInc => rw [dec8_value, inc8_value, BitVec.add_sub_cancel]
  case subAdd => rw [sub8_value, add8_value, BitVec.add_sub_cancel]
  case carryAndZero =>
    rw [← byte_sum_eq_256_iff]
    simp [flagOf_add8]

end Sys2Proof.Machine
end

section
/-! What an assembly answers (30_encoding.md R126 to R135): the lines behind `END` are not read,
R134's error names the first line that does not parse, and every record comes from a line by `parseTokens`. -/

namespace Sys2Proof.Machine

/-! ## The pass over the lines -/

theorem assembleLines_cons_of_end {p : AsmParams} {line : List Char}
    (h : parseLine p line = .endOfSource) (n : Nat) (rest : List (List Char)) :
    assembleLines p n (line :: rest) = .ok [] := by
  rw [assembleLines, h]

/-- Settles O58: the pass ends at the `END` line if it comes that far. -/
theorem linesAfterEndAreNotRead : Obligations.LinesAfterEndAreNotRead := by
  intro p lines rest endLine n hend
  induction lines generalizing n with
  | nil =>
    rw [List.nil_append, List.nil_append, assembleLines_cons_of_end hend, assembleLines_cons_of_end hend]
  | cons line lines ih => simp only [List.cons_append, assembleLines, ih]

/-- `line` is the first of the lines that does not parse, no `END` comes before it, and its number is `m` if
the first line of all has the number `n`. -/
def FirstBadLine (p : AsmParams) (n : Nat) (lines : List (List Char)) (m : Nat)
    (line : List Char) : Prop :=
  ∃ before rest, lines = before ++ line :: rest ∧ m = n + before.length ∧
    parseLine p line = .malformed ∧
    ∀ l ∈ before, parseLine p l ≠ .malformed ∧ parseLine p l ≠ .endOfSource

/-- A line that parses and is no `END` may come before. -/
theorem FirstBadLine.cons {p : AsmParams} {n m : Nat} {first line : List Char} {lines : List (List Char)}
    (h : FirstBadLine p (n + 1) lines m line) (hbad : parseLine p first ≠ .malformed)
    (hend : parseLine p first ≠ .endOfSource) : FirstBadLine p n (first :: lines) m line := by
  obtain ⟨before, rest, rfl, rfl, hline, hbefore⟩ := h
  refine ⟨first :: before, rest, rfl, ?_, hline, List.forall_mem_cons.mpr ⟨⟨hbad, hend⟩, hbefore⟩⟩
  rw [List.length_cons]
  omega

theorem firstBadLine_of_syntaxError {p : AsmParams} {n m : Nat} {lines : List (List Char)}
    {line : List Char} (h : assembleLines p n lines = .error (.syntaxError m line)) :
    FirstBadLine p n lines m line := by
  induction lines generalizing n with
  | nil => cases h
  | cons first lines ih =>
    rw [assembleLines] at h
    cases hfirst : parseLine p first with
    | skip =>
      rw [hfirst] at h
      exact (ih h).cons (by simp [hfirst]) (by simp [hfirst])
    | endOfSource => rw [hfirst] at h; cases h
    | malformed =>
      rw [hfirst] at h
      cases h
      exact ⟨[], lines, rfl, rfl, hfirst, nofun⟩
    | record r =>
      rw [hfirst] at h
      cases hrest : assembleLines p (n + 1) lines with
      | ok rs => simp [hrest] at h
      | error e =>
        obtain rfl : e = .syntaxError m line := by simpa [hrest] using h
        exact (ih hrest).cons (by simp [hfirst]) (by simp [hfirst])

/-- Settles O59: the line numbers of a text begin at 1. -/
theorem syntaxErrorNamesTheFirstBadLine : Obligations.SyntaxErrorNamesTheFirstBadLine := by
  intro p text line n h
  obtain ⟨before, rest, hlines, rfl, hline, hbefore⟩ :=
    firstBadLine_of_syntaxError h
  rw [hlines, Nat.add_sub_cancel_left]
  refine ⟨Nat.le_add_right .., by simp, hline, fun j l hj hl => hbefore l ?_⟩
  rw [List.getElem?_append_left hj] at hl
  exact List.mem_of_getElem? hl

/-- Every record of a successful assembly is what some line parses to. -/
theorem exists_line_of_mem_assembleLines {p : AsmParams} {n : Nat} {lines : List (List Char)}
    {rs : Program} (h : assembleLines p n lines = .ok rs) {r : Record} (hr : r ∈ rs) :
    ∃ l ∈ lines, parseLine p l = .record r := by
  induction lines generalizing n rs with
  | nil => cases h
  | cons line lines ih =>
    have hlater {rs : Program} (hrest : assembleLines p (n + 1) lines = .ok rs) (hr : r ∈ rs) :
        ∃ l ∈ line :: lines, parseLine p l = .record r := by
      obtain ⟨l, hl, hparse⟩ := ih hrest hr
      exact ⟨l, List.mem_cons_of_mem _ hl, hparse⟩
    rw [assembleLines] at h
    cases hline : parseLine p line with
    | skip => rw [hline] at h; exact hlater h hr
    | endOfSource => rw [hline] at h; cases h; cases hr
    | malformed => rw [hline] at h; cases h
    | record r' =>
      rw [hline] at h
      cases hrest : assembleLines p (n + 1) lines with
      | error e => simp [hrest] at h
      | ok rs' =>
        obtain rfl : r' :: rs' = rs := by simpa [hrest] using h
        obtain rfl | hr := List.mem_cons.mp hr
        · exact ⟨line, List.mem_cons_self .., hline⟩
        · exact hlater hrest hr

/-- A line's record is that of its tokens (R129). -/
theorem exists_tokens_of_parseLine {p : AsmParams} {l : List Char} {r : Record}
    (h : parseLine p l = .record r) : ∃ ts, parseTokens p ts = some r := by
  unfold parseLine at h
  simp only at h
  split_ifs at h
  split at h
  next r' hr => cases h; exact ⟨_, hr⟩
  next => cases h

/-! ## Literals and identifiers -/

/-- A literal is at most 65535 (R133). -/
theorem digitsValue_le {digit : Char → Option Nat} {base : Nat} {t : List Char} {n : Nat}
    (h : digitsValue digit base t = some n) : n ≤ 0xFFFF := by
  unfold digitsValue at h
  split_ifs at h
  split at h
  · split_ifs at h with hle
    cases h
    exact hle
  · cases h

theorem parseLiteral_le {p : AsmParams} {t : List Char} {n : Nat} (h : parseLiteral p t = some n) :
    n ≤ 0xFFFF := by
  unfold parseLiteral at h
  split at h
  · cases h
  · split_ifs at h
    · exact digitsValue_le h
    · exact digitsValue_le h

/-- What R131 to R133 say of an operand: a value of at most 65535, below 0x100 in DIRECT mode and not below
it in EXTENDED mode. -/
structure FollowsModeRule (mode : Mode) (n : Nat) : Prop where
  le : n ≤ 0xFFFF
  direct : mode = .direct → n ≤ 0xFF
  extended : mode = .extended → 0x100 ≤ n
  hasOperand : mode ≠ .inherent

theorem followsModeRule_of_magnitude {n : Nat} (h : n ≤ 0xFFFF) :
    FollowsModeRule (if n < 0x100 then .direct else .extended) n := by
  split_ifs with hlt
  · exact ⟨h, fun _ => Nat.le_of_lt_succ hlt, nofun, nofun⟩
  · exact ⟨h, nofun, fun _ => Nat.le_of_not_lt hlt, nofun⟩

theorem followsModeRule_of_parseOperand {p : AsmParams} {t : List Char} {mode : Mode} {n : Nat}
    (h : parseOperand p t = some (mode, n)) : FollowsModeRule mode n := by
  unfold parseOperand at h
  split at h
  · obtain ⟨n', hn, heq⟩ := Option.map_eq_some_iff.mp h
    cases heq
    exact ⟨parseLiteral_le hn, nofun, nofun, nofun⟩
  · obtain ⟨n', hn, heq⟩ := Option.map_eq_some_iff.mp h
    cases heq
    exact followsModeRule_of_magnitude (parseLiteral_le hn)

/-- Upper case changes a small letter's code by 32 and no other character (R129). -/
theorem toNat_upperChar (c : Char) :
    (upperChar c).toNat = if 97 ≤ c.toNat ∧ c.toNat ≤ 122 then c.toNat - 32 else c.toNat := by
  unfold upperChar
  split_ifs with h
  · have hvalid : (c.toNat - 32).isValidChar := .inl (by omega)
    rw [Char.toNat_ofNat, if_pos hvalid]
  · rfl

theorem isLetter_iff {c : Char} :
    isLetter c = true ↔ (65 ≤ c.toNat ∧ c.toNat ≤ 90) ∨ (97 ≤ c.toNat ∧ c.toNat ≤ 122) := by
  simp [isLetter]

theorem isDigit_iff {c : Char} : isDigit c = true ↔ 48 ≤ c.toNat ∧ c.toNat ≤ 57 := by
  simp [isDigit]

theorem isLetter_upperChar {c : Char} (h : isLetter c = true) : isLetter (upperChar c) = true := by
  rw [isLetter_iff] at h ⊢
  rw [toNat_upperChar]
  split_ifs <;> omega

theorem isDigit_upperChar {c : Char} (h : isDigit c = true) : isDigit (upperChar c) = true := by
  rw [isDigit_iff] at h ⊢
  rw [toNat_upperChar]
  split_ifs <;> omega

/-- An identifier in upper case is an identifier (R134). -/
theorem isIdentifier_upperText {t : List Char} (h : isIdentifier t = true) :
    isIdentifier (upperText t) = true := by
  cases t with
  | nil => cases h
  | cons c cs =>
    simp only [isIdentifier, upperText, List.map_cons, List.all_map, Bool.and_eq_true, List.all_eq_true,
      Bool.or_eq_true, Function.comp_apply] at h ⊢
    obtain ⟨hfirst, hrest⟩ := h
    exact ⟨isLetter_upperChar hfirst, fun d hd => (hrest d hd).imp isLetter_upperChar isDigit_upperChar⟩

theorem isIdentifier_name (m : Mnemonic) : isIdentifier m.name = true := by cases m <;> decide

/-! ## Records -/

/-- The two kinds of record a line gives: one of the closed set without an operand, and one with an
operand whose mode follows from it (R130 to R134). -/
theorem parseTokens_eq_some {p : AsmParams} {ts : List (List Char)} {r : Record}
    (h : parseTokens p ts = some r) :
    (∃ m ∈ inherentSet, r = ⟨m.name, .inherent, 0⟩) ∨
      isIdentifier r.mnemonic = true ∧ FollowsModeRule r.mode r.operand := by
  unfold parseTokens at h
  split at h
  · split_ifs at h with hset
    cases h
    obtain ⟨m, hm, hname⟩ := List.any_eq_true.mp hset
    exact .inl ⟨m, hm, by rw [beq_iff_eq.mp hname]⟩
  · split_ifs at h with hident
    obtain ⟨⟨mode, n⟩, hoperand, heq⟩ := Option.map_eq_some_iff.mp h
    cases heq
    exact .inr ⟨isIdentifier_upperText hident, followsModeRule_of_parseOperand hoperand⟩
  · cases h

/-- Settles O60: every record is one of the two kinds of `parseTokens_eq_some`. -/
theorem assembledRecordsFollowTheModeRule : Obligations.AssembledRecordsFollowTheModeRule := by
  intro a text p h r hr
  obtain ⟨l, -, hline⟩ := exists_line_of_mem_assembleLines h hr
  obtain ⟨ts, hts⟩ := exists_tokens_of_parseLine hline
  obtain ⟨m, hm, rfl⟩ | ⟨hident, hrule⟩ := parseTokens_eq_some hts
  · have hwf : Record.wellFormed ⟨m.name, .inherent, 0⟩ = true := by
      simp [Record.wellFormed, isIdentifier_name]
    exact ⟨hwf, nofun, nofun, fun _ => ⟨m, hm, rfl⟩⟩
  · have hwf : r.wellFormed = true := by
      simp [Record.wellFormed, hident, hrule.le, hrule.hasOperand]
    exact ⟨hwf, hrule.direct, hrule.extended, fun hmode => absurd hmode hrule.hasOperand⟩

end Sys2Proof.Machine
end
